-- ==== Sys2Proof/Word.lean ====
section
/-! DEFINITION. The bit vectors of the core (00_scope.md R7, R9; 30_encoding.md R50): every value is unsigned. -/

namespace Sys2Proof

/-- A byte: a general register, a timer, the stack pointer, one byte of memory, the field kk. -/
abbrev Byte := BitVec 8

/-- A 16-bit word: the instruction word, pc, I, a stack entry. -/
abbrev Word := BitVec 16

/-- A nibble: the fields op, x, y and n, a register index, a key index. -/
abbrev Nibble := BitVec 4

/-- The 12-bit address field nnn. -/
abbrev Addr12 := BitVec 12

end Sys2Proof
end

