-- ==== Sys2Proof/Syntax.lean ====
section
/-! DEFINITION. The instructions: one constructor per row of the opcode map (30_encoding.md R59), in its order. -/

namespace Sys2Proof

/-- The 34 instructions. x and y are register indices, kk a byte, nnn a 12-bit address, n a sprite height (R50). The
field z of seReg and sneReg and the field y of skp and sknp are the nibbles the dispatcher ignores in doc mode (R51);
they are kept so that the instruction word can be recovered (assumption log 5), and no meaning reads them. -/
inductive Instr where
  | cls
  | ret
  | jp (nnn : Addr12)
  | call (nnn : Addr12)
  | seImm (x : Nibble) (kk : Byte)
  | sneImm (x : Nibble) (kk : Byte)
  | seReg (x y z : Nibble)
  | ldImm (x : Nibble) (kk : Byte)
  | addImm (x : Nibble) (kk : Byte)
  | ldReg (x y : Nibble)
  | orReg (x y : Nibble)
  | andReg (x y : Nibble)
  | xorReg (x y : Nibble)
  | addReg (x y : Nibble)
  | subReg (x y : Nibble)
  | shr (x y : Nibble)
  | subnReg (x y : Nibble)
  | shl (x y : Nibble)
  | sneReg (x y z : Nibble)
  | ldI (nnn : Addr12)
  | jpV0 (nnn : Addr12)
  | rnd (x : Nibble) (kk : Byte)
  | drw (x y n : Nibble)
  | skp (x y : Nibble)
  | sknp (x y : Nibble)
  | ldVxDT (x : Nibble)
  | ldVxK (x : Nibble)
  | ldDTVx (x : Nibble)
  | ldSTVx (x : Nibble)
  | addI (x : Nibble)
  | ldF (x : Nibble)
  | ldB (x : Nibble)
  | storeRegs (x : Nibble)
  | loadRegs (x : Nibble)
  deriving DecidableEq, Repr

end Sys2Proof
end

