-- ==== Sys2Proof/WellFormed.lean ====
section
/-! DEFINITION. Which instructions have a legal word. Every field has the width of its type, so only the ignored
nibbles of canonical mode need a check (30_encoding.md R60). -/

namespace Sys2Proof

/-- In doc mode (false) every instruction is well formed; in canonical mode (true) the ignored nibble must be 0 in
SE Vx, Vy and SNE Vx, Vy, 9 in SKP and A in SKNP (30_encoding.md R60). -/
def Instr.wellFormed (canonical : Bool) : Instr → Bool
  | .seReg _ _ z => !canonical || z == 0x0#4
  | .sneReg _ _ z => !canonical || z == 0x0#4
  | .skp _ y => !canonical || y == 0x9#4
  | .sknp _ y => !canonical || y == 0xA#4
  | .cls | .ret | .jp _ | .call _ | .seImm _ _ | .sneImm _ _ | .ldImm _ _ | .addImm _ _ | .ldReg _ _ | .orReg _ _
  | .andReg _ _ | .xorReg _ _ | .addReg _ _ | .subReg _ _ | .shr _ _ | .subnReg _ _ | .shl _ _ | .ldI _ | .jpV0 _
  | .rnd _ _ | .drw _ _ _ | .ldVxDT _ | .ldVxK _ | .ldDTVx _ | .ldSTVx _ | .addI _ | .ldF _ | .ldB _
  | .storeRegs _ | .loadRegs _ => true

end Sys2Proof
end

