-- ==== Sys2Proof/Decode.lean ====
section
/-! DEFINITION. The decoder (30_encoding.md R50, R53 to R63), the encoder written from the same opcode map (R59), and
the map itself as rows of match and mask. -/

namespace Sys2Proof

/-- Why no instruction is read. -/
inductive DecodeError where
  /-- The word matches no row of the opcode map: the verdict `Unknown` of 30_encoding.md R63. -/
  | unknownOpcode (w : Word)
  /-- Fewer than the two bytes of an instruction were given; never raised by a fetch (assumption log 10). -/
  | truncated
  deriving DecidableEq, Repr

/-! ### Fields of the instruction word (R50) -/

/-- op, bits 15..12. -/
def fieldOp (w : Word) : Nibble := w.extractLsb' 12 4

/-- x, bits 11..8. -/
def fieldX (w : Word) : Nibble := w.extractLsb' 8 4

/-- y, bits 7..4. -/
def fieldY (w : Word) : Nibble := w.extractLsb' 4 4

/-- n, bits 3..0. -/
def fieldN (w : Word) : Nibble := w.extractLsb' 0 4

/-- kk, bits 7..0. -/
def fieldKK (w : Word) : Byte := w.extractLsb' 0 8

/-- nnn, bits 11..0. -/
def fieldNNN (w : Word) : Addr12 := w.extractLsb' 0 12

/-- The word whose most significant byte is `hi` (20_memory.md R38). -/
def wordOfBytes (hi lo : Byte) : Word := hi ++ lo

/-- The most significant byte of a word. -/
def highByte (w : Word) : Byte := w.extractLsb' 8 8

/-- The least significant byte of a word. -/
def lowByte (w : Word) : Byte := w.extractLsb' 0 8

/-! ### Decoding -/

/-- Family 0: the whole word is compared (R54). -/
def decodeFamily0 (w : Word) : Except DecodeError Instr :=
  if w = 0x00E0#16 then .ok .cls
  else if w = 0x00EE#16 then .ok .ret
  else .error (.unknownOpcode w)

/-- Family 8: the trailing nibble selects one of nine operations (R55). -/
def decodeFamily8 (w : Word) : Except DecodeError Instr :=
  let x := fieldX w
  let y := fieldY w
  match fieldN w with
  | 0x0#4 => .ok (.ldReg x y)
  | 0x1#4 => .ok (.orReg x y)
  | 0x2#4 => .ok (.andReg x y)
  | 0x3#4 => .ok (.xorReg x y)
  | 0x4#4 => .ok (.addReg x y)
  | 0x5#4 => .ok (.subReg x y)
  | 0x6#4 => .ok (.shr x y)
  | 0x7#4 => .ok (.subnReg x y)
  | 0xE#4 => .ok (.shl x y)
  | _ => .error (.unknownOpcode w)

/-- Family E: the trailing nibble selects; canonical mode also requires y (R56, R60). -/
def decodeFamilyE (canonical : Bool) (w : Word) : Except DecodeError Instr :=
  let x := fieldX w
  let y := fieldY w
  match fieldN w with
  | 0xE#4 => if canonical = true ∧ y ≠ 0x9#4 then .error (.unknownOpcode w) else .ok (.skp x y)
  | 0x1#4 => if canonical = true ∧ y ≠ 0xA#4 then .error (.unknownOpcode w) else .ok (.sknp x y)
  | _ => .error (.unknownOpcode w)

/-- Family F: the trailing byte selects one of nine operations (R57). -/
def decodeFamilyF (w : Word) : Except DecodeError Instr :=
  let x := fieldX w
  match fieldKK w with
  | 0x07#8 => .ok (.ldVxDT x)
  | 0x0A#8 => .ok (.ldVxK x)
  | 0x15#8 => .ok (.ldDTVx x)
  | 0x18#8 => .ok (.ldSTVx x)
  | 0x1E#8 => .ok (.addI x)
  | 0x29#8 => .ok (.ldF x)
  | 0x33#8 => .ok (.ldB x)
  | 0x55#8 => .ok (.storeRegs x)
  | 0x65#8 => .ok (.loadRegs x)
  | _ => .error (.unknownOpcode w)

/-- The decode function, total on all words (R63). The argument is CANONICAL_DECODE. -/
def decode (canonical : Bool) (w : Word) : Except DecodeError Instr :=
  let x := fieldX w
  let y := fieldY w
  let n := fieldN w
  let kk := fieldKK w
  let nnn := fieldNNN w
  match fieldOp w with
  | 0x0#4 => decodeFamily0 w
  | 0x1#4 => .ok (.jp nnn)
  | 0x2#4 => .ok (.call nnn)
  | 0x3#4 => .ok (.seImm x kk)
  | 0x4#4 => .ok (.sneImm x kk)
  | 0x5#4 => if canonical = true ∧ n ≠ 0x0#4 then .error (.unknownOpcode w) else .ok (.seReg x y n)
  | 0x6#4 => .ok (.ldImm x kk)
  | 0x7#4 => .ok (.addImm x kk)
  | 0x8#4 => decodeFamily8 w
  | 0x9#4 => if canonical = true ∧ n ≠ 0x0#4 then .error (.unknownOpcode w) else .ok (.sneReg x y n)
  | 0xA#4 => .ok (.ldI nnn)
  | 0xB#4 => .ok (.jpV0 nnn)
  | 0xC#4 => .ok (.rnd x kk)
  | 0xD#4 => .ok (.drw x y n)
  | 0xE#4 => decodeFamilyE canonical w
  | 0xF#4 => decodeFamilyF w
  | _ => .error (.unknownOpcode w)

/-- Decoding from bytes: exactly two are consumed, the most significant first (R49; 20_memory.md R38). -/
def decodeBytes (canonical : Bool) : List Byte → Except DecodeError (Instr × List Byte)
  | hi :: lo :: rest =>
    match decode canonical (wordOfBytes hi lo) with
    | .ok i => .ok (i, rest)
    | .error e => .error e
  | _ => .error .truncated

/-! ### Encoding -/

/-- Formats R and D, and format X of family E: op, x, y and the lowest nibble (R51). -/
def packNibbles (op x y n : Nibble) : Word := op ++ x ++ y ++ n

/-- Format K, and format X of family F: op, x and the low byte (R51). -/
def packByte (op x : Nibble) (kk : Byte) : Word := op ++ x ++ kk

/-- Format A: op and the address (R51). -/
def packAddr (op : Nibble) (nnn : Addr12) : Word := op ++ nnn

/-- The word of an instruction (R51, R59). -/
def encode : Instr → Word
  | .cls => 0x00E0#16
  | .ret => 0x00EE#16
  | .jp nnn => packAddr 0x1#4 nnn
  | .call nnn => packAddr 0x2#4 nnn
  | .seImm x kk => packByte 0x3#4 x kk
  | .sneImm x kk => packByte 0x4#4 x kk
  | .seReg x y z => packNibbles 0x5#4 x y z
  | .ldImm x kk => packByte 0x6#4 x kk
  | .addImm x kk => packByte 0x7#4 x kk
  | .ldReg x y => packNibbles 0x8#4 x y 0x0#4
  | .orReg x y => packNibbles 0x8#4 x y 0x1#4
  | .andReg x y => packNibbles 0x8#4 x y 0x2#4
  | .xorReg x y => packNibbles 0x8#4 x y 0x3#4
  | .addReg x y => packNibbles 0x8#4 x y 0x4#4
  | .subReg x y => packNibbles 0x8#4 x y 0x5#4
  | .shr x y => packNibbles 0x8#4 x y 0x6#4
  | .subnReg x y => packNibbles 0x8#4 x y 0x7#4
  | .shl x y => packNibbles 0x8#4 x y 0xE#4
  | .sneReg x y z => packNibbles 0x9#4 x y z
  | .ldI nnn => packAddr 0xA#4 nnn
  | .jpV0 nnn => packAddr 0xB#4 nnn
  | .rnd x kk => packByte 0xC#4 x kk
  | .drw x y n => packNibbles 0xD#4 x y n
  | .skp x y => packNibbles 0xE#4 x y 0xE#4
  | .sknp x y => packNibbles 0xE#4 x y 0x1#4
  | .ldVxDT x => packByte 0xF#4 x 0x07#8
  | .ldVxK x => packByte 0xF#4 x 0x0A#8
  | .ldDTVx x => packByte 0xF#4 x 0x15#8
  | .ldSTVx x => packByte 0xF#4 x 0x18#8
  | .addI x => packByte 0xF#4 x 0x1E#8
  | .ldF x => packByte 0xF#4 x 0x29#8
  | .ldB x => packByte 0xF#4 x 0x33#8
  | .storeRegs x => packByte 0xF#4 x 0x55#8
  | .loadRegs x => packByte 0xF#4 x 0x65#8

/-- The two bytes of an instruction as they lie in memory, most significant first (20_memory.md R38). -/
def encodeBytes (i : Instr) : List Byte := [highByte (encode i), lowByte (encode i)]

/-! ### The opcode map as match and mask (R59, R60) -/

/-- One row of the opcode map. -/
structure OpcodeRow where
  pattern : Word
  mask : Word
  deriving DecidableEq, Repr

/-- A word selects a row when its bits under the mask are the row's (R59). -/
def OpcodeRow.selects (r : OpcodeRow) (w : Word) : Bool := (w &&& r.mask) == r.pattern

/-- The match and mask of an instruction's row: R59's, and R60's four stricter ones in canonical mode. -/
def opcodeRow (canonical : Bool) : Instr → OpcodeRow
  | .cls => ⟨0x00E0, 0xFFFF⟩
  | .ret => ⟨0x00EE, 0xFFFF⟩
  | .jp _ => ⟨0x1000, 0xF000⟩
  | .call _ => ⟨0x2000, 0xF000⟩
  | .seImm _ _ => ⟨0x3000, 0xF000⟩
  | .sneImm _ _ => ⟨0x4000, 0xF000⟩
  | .seReg _ _ _ => if canonical then ⟨0x5000, 0xF00F⟩ else ⟨0x5000, 0xF000⟩
  | .ldImm _ _ => ⟨0x6000, 0xF000⟩
  | .addImm _ _ => ⟨0x7000, 0xF000⟩
  | .ldReg _ _ => ⟨0x8000, 0xF00F⟩
  | .orReg _ _ => ⟨0x8001, 0xF00F⟩
  | .andReg _ _ => ⟨0x8002, 0xF00F⟩
  | .xorReg _ _ => ⟨0x8003, 0xF00F⟩
  | .addReg _ _ => ⟨0x8004, 0xF00F⟩
  | .subReg _ _ => ⟨0x8005, 0xF00F⟩
  | .shr _ _ => ⟨0x8006, 0xF00F⟩
  | .subnReg _ _ => ⟨0x8007, 0xF00F⟩
  | .shl _ _ => ⟨0x800E, 0xF00F⟩
  | .sneReg _ _ _ => if canonical then ⟨0x9000, 0xF00F⟩ else ⟨0x9000, 0xF000⟩
  | .ldI _ => ⟨0xA000, 0xF000⟩
  | .jpV0 _ => ⟨0xB000, 0xF000⟩
  | .rnd _ _ => ⟨0xC000, 0xF000⟩
  | .drw _ _ _ => ⟨0xD000, 0xF000⟩
  | .skp _ _ => if canonical then ⟨0xE09E, 0xF0FF⟩ else ⟨0xE00E, 0xF00F⟩
  | .sknp _ _ => if canonical then ⟨0xE0A1, 0xF0FF⟩ else ⟨0xE001, 0xF00F⟩
  | .ldVxDT _ => ⟨0xF007, 0xF0FF⟩
  | .ldVxK _ => ⟨0xF00A, 0xF0FF⟩
  | .ldDTVx _ => ⟨0xF015, 0xF0FF⟩
  | .ldSTVx _ => ⟨0xF018, 0xF0FF⟩
  | .addI _ => ⟨0xF01E, 0xF0FF⟩
  | .ldF _ => ⟨0xF029, 0xF0FF⟩
  | .ldB _ => ⟨0xF033, 0xF0FF⟩
  | .storeRegs _ => ⟨0xF055, 0xF0FF⟩
  | .loadRegs _ => ⟨0xF065, 0xF0FF⟩

/-- One instruction of each row, in the order of R59, every field zero. -/
def opcodeSamples : List Instr :=
  [.cls, .ret, .jp 0, .call 0, .seImm 0 0, .sneImm 0 0, .seReg 0 0 0, .ldImm 0 0, .addImm 0 0] ++
  [.ldReg 0 0, .orReg 0 0, .andReg 0 0, .xorReg 0 0, .addReg 0 0, .subReg 0 0, .shr 0 0, .subnReg 0 0, .shl 0 0] ++
  [.sneReg 0 0 0, .ldI 0, .jpV0 0, .rnd 0 0, .drw 0 0 0, .skp 0 0, .sknp 0 0] ++
  [.ldVxDT 0, .ldVxK 0, .ldDTVx 0, .ldSTVx 0, .addI 0, .ldF 0, .ldB 0, .storeRegs 0, .loadRegs 0]

/-- The opcode map: the 34 rows of R59, or with R60's changes in canonical mode. -/
def opcodeTable (canonical : Bool) : List OpcodeRow := opcodeSamples.map (opcodeRow canonical)

/-! ### The host's view of the decoder -/

/-- The instruction the decoder reads, in doc mode (the mode of spec/opcode_table.json and of State.reset), from an
instruction whose bits are `w`: the word is laid out as memory holds it, most significant byte first. -/
def decodeTableWord (nbits w : Nat) : Option Instr :=
  let word := BitVec.ofNat 16 (w % 2 ^ nbits)
  match decodeBytes false [highByte word, lowByte word] with
  | .ok (i, _) => some i
  | .error _ => none

end Sys2Proof
end

