-- ==== Sys2Proof/Config.lean ====
section
/-! DEFINITION. The parameters the spec leaves open (00_scope.md R8) and the two free draws. The values a machine
takes at reset are in Machine/Defaults.lean. -/

namespace Sys2Proof

/-- SHIFT_SOURCE: which register SHR and SHL read (42_alu.md R94, R96; 92_eei_decisions.md D7). -/
inductive ShiftSource where
  | x
  | y
  deriving DecidableEq, Repr

/-- One glyph: five sprite rows (10_state.md R32). -/
abbrev Glyph := Vector Byte 5

/-- FONT: sixteen glyphs, 80 bytes (10_state.md R32; 92_eei_decisions.md D10). -/
abbrev Font := Vector Glyph 16

/-- The parameters of 00_scope.md R8 that are plain values. The machine holds them in its state and no operation
writes them (assumption log 2). -/
structure Params where
  /-- TIMER_COUPLED: a cycle that did not raise also decrements the timers (40_cycle.md R70; D18). -/
  timerCoupled : Bool
  /-- SHIFT_SOURCE (42_alu.md R94, R96; D7). -/
  shiftSource : ShiftSource
  /-- CANONICAL_DECODE: the dispatcher also refuses the non-canonical words (30_encoding.md R60; D3). -/
  canonicalDecode : Bool
  /-- FONT: the 80 bytes that Reset places at 0x000 (10_state.md R32; D10). -/
  font : Font
  deriving DecidableEq, Repr

/-- RNG: the byte of the n-th draw (42_alu.md R97; 92_eei_decisions.md D21). DESIGN CHOICE (assumption log 3): a free
value with no body, so a claim holds for every byte. Safe. -/
opaque Config.rngByte : Nat → Byte

/-- KEY_CHOICE: the number that selects one pressed key at the n-th draw (45_keypad_timers.md R110;
92_eei_decisions.md D11). DESIGN CHOICE (assumption log 3): a free value with no body. Safe. -/
opaque Config.keyChoice : Nat → Nat

end Sys2Proof
end

