-- ==== Sys2Proof/Machine/Defaults.lean ====
section
/-! DEFINITION. The parameters' default values: the conventional font and the settings a machine has at reset
(00_scope.md R8, 10_state.md R32). -/

namespace Sys2Proof.Machine

/-- The default FONT, glyphs 0 to F (10_state.md R32). -/
def defaultFont : Font :=
  #v[#v[0xF0, 0x90, 0x90, 0x90, 0xF0], #v[0x20, 0x60, 0x20, 0x20, 0x70],
     #v[0xF0, 0x10, 0xF0, 0x80, 0xF0], #v[0xF0, 0x10, 0xF0, 0x10, 0xF0],
     #v[0x90, 0x90, 0xF0, 0x10, 0x10], #v[0xF0, 0x80, 0xF0, 0x10, 0xF0],
     #v[0xF0, 0x80, 0xF0, 0x90, 0xF0], #v[0xF0, 0x10, 0x20, 0x40, 0x40],
     #v[0xF0, 0x90, 0xF0, 0x90, 0xF0], #v[0xF0, 0x90, 0xF0, 0x10, 0xF0],
     #v[0xF0, 0x90, 0xF0, 0x90, 0x90], #v[0xE0, 0x90, 0xE0, 0x90, 0xE0],
     #v[0xF0, 0x80, 0x80, 0x80, 0xF0], #v[0xE0, 0x90, 0x90, 0x90, 0xE0],
     #v[0xF0, 0x80, 0xF0, 0x80, 0xF0], #v[0xF0, 0x80, 0xF0, 0x80, 0x80]]

/-- Byte `a` of a font: row a mod 5 of glyph a div 5, 0 beyond the font (10_state.md R32: glyph d occupies bytes
5d to 5d+4). -/
def fontByte (f : Font) (a : Nat) : Byte :=
  if h : a < 80 then (f[a / 5]'(by omega))[a % 5]'(by omega) else 0x00

/-- The defaults of 00_scope.md R8 (assumption log 2). -/
def defaultParams : Params :=
  { timerCoupled := false, shiftSource := .x, canonicalDecode := false, font := defaultFont }

end Sys2Proof.Machine
end

