-- ==== Sys2Proof/Machine/State.lean ====
section
/-! DEFINITION. The state of the core (10_state.md R17 to R30), why a step can stop, and the state after reset
(10_state.md R33, 70_reset_and_hazards.md R138). -/

namespace Sys2Proof.Machine

/-- Memory: the bytes that differ from their reset contents, as (address, byte) pairs with addresses strictly rising
(10_state.md R26; assumption log 4). -/
abbrev Memory := List Host.Cell

/-- The display buffer disp[c][r]: 64 columns of 32 rows (10_state.md R27). -/
abbrev Display := Vector (Vector Bool 32) 64

/-- The kinds of error condition (60_exceptions.md R113). -/
inductive FaultKind where
  | unknownOpcode
  | stackOverflow
  | stackUnderflow
  | pcOutOfRange
  | undefinedOperand
  deriving DecidableEq, Repr

/-- What the fault register records (10_state.md R30). The record's code is a function of the kind
(`FaultKind.code`). -/
structure FaultRecord where
  /-- The kind of the condition. -/
  kind : FaultKind
  /-- pc at the faulting fetch. -/
  pc : Word
  /-- The fetched instruction word, 0 when none was fetched. -/
  word : Word
  /-- Extra data of the kind, zero-extended (R113). -/
  info : Word
  deriving DecidableEq, Repr

/-- The state of the core. -/
structure State where
  /-- V[0] to V[0xF]; V[0xF] is also the flag register (10_state.md R17, R18). -/
  v : Vector Byte 16
  /-- The address register I (10_state.md R20). -/
  i : Word
  /-- The program counter (10_state.md R21). -/
  pc : Word
  /-- The stack pointer, in [0, 16] (10_state.md R23). -/
  sp : Byte
  /-- The call stack (10_state.md R24). -/
  stack : Vector Word 16
  /-- The delay timer (10_state.md R25). -/
  dt : Byte
  /-- The sound timer (10_state.md R25). -/
  st : Byte
  /-- Memory (10_state.md R26). -/
  mem : Memory
  /-- The display buffer (10_state.md R27). -/
  disp : Display
  /-- The keypad latch; true is pressed (10_state.md R28). -/
  key : Vector Bool 16
  /-- The fault register (10_state.md R30). -/
  fault : Option FaultRecord
  /-- The display export: the snapshot the host reads (60_exceptions.md R130). -/
  dispExport : Display
  /-- The parameters of 00_scope.md R8; never written (assumption log 2). -/
  params : Params
  /-- How many free draws were taken: the model's own counter (assumption log 3). -/
  draws : Nat
  deriving DecidableEq, Repr

/-- Why a step stops the machine. -/
inductive Fault where
  /-- Raised by `step` alone, in a state whose fault register holds `r`: such a state has no cycle step
  (40_cycle.md R65; assumption log 1). Safe: the machine does nothing there either. -/
  | halted (r : FaultRecord)
  /-- Raised by CALL and RET in a state whose stack pointer exceeds 16, which 10_state.md R23 rules out and no run
  reaches; the spec gives no effect there (assumption log 6). Safe. -/
  | spOutOfRange (sp : Byte)
  deriving DecidableEq, Repr

/-- Why an instruction has no meaning. -/
inductive Refusal where
  /-- Raised by `exec` for an instruction that has no meaning yet; no arm does so now. Safe. -/
  | notModelled (mnemonic : String)
  deriving DecidableEq, Repr

/-- A display with every cell off. -/
def blankDisplay : Display := Vector.replicate 64 (Vector.replicate 32 false)

/-- The machine right after reset, with the default parameters (10_state.md R33, 70_reset_and_hazards.md R138). -/
def State.reset : State where
  v := Vector.replicate 16 0x00
  i := 0x0000
  pc := 0x0200
  sp := 0
  stack := Vector.replicate 16 0x0000
  dt := 0
  st := 0
  mem := []
  disp := blankDisplay
  key := Vector.replicate 16 false
  fault := none
  dispExport := blankDisplay
  params := defaultParams
  draws := 0

end Sys2Proof.Machine
end

