-- ==== Sys2Proof/Machine/Ops.lean ====
section
/-! DEFINITION. The named operations over registers, memory, the call stack, the display, the timers and the fault
register, which every meaning is written with. -/

namespace Sys2Proof.Machine

/-! ### Loops -/

/-- `for k in 0 .. n-1: a <- f k a`, in ascending order. -/
def forUpTo {α : Type} : Nat → (Nat → α → α) → α → α
  | 0, _, a => a
  | n + 1, f, a => f n (forUpTo n f a)

/-! ### General registers (10_state.md R17) -/

/-- V[r]. -/
def State.readV (s : State) (r : Nibble) : Byte := s.v[r.toNat]'r.isLt

/-- V[r] <- b. -/
def State.writeV (s : State) (r : Nibble) (b : Byte) : State := { s with v := s.v.set r.toNat b r.isLt }

/-- The index of the flag register VF (10_state.md R18). -/
def flagReg : Nibble := 0xF#4

/-- V[x] <- result, then V[0xF] <- flag: the flag is written last (42_alu.md R85). -/
def State.writeResultFlag (s : State) (x : Nibble) (result flag : Byte) : State :=
  (s.writeV x result).writeV flagReg flag

/-! ### Memory (10_state.md R26, 20_memory.md R34) -/

/-- What an address reads as when nothing is listed for it: its reset content, the default font below 0x050 and
0x00 from there on (10_state.md R33). -/
def resetByte (a : Nat) : Byte := fontByte defaultFont a

/-- The byte at address `a` of a memory. -/
def Memory.read : Memory → Nat → Byte
  | [], a => resetByte a
  | (a', b) :: m, a => if a = a' then b else Memory.read m a

/-- The list entry of address `a` with byte `b`, in front of `m`: none when the unlisted address reads so. -/
def Memory.cons (a : Nat) (b : Byte) (m : Memory) : Memory := if b = resetByte a then m else (a, b) :: m

/-- The memory with byte `b` at address `a`, in canonical form. -/
def Memory.write : Memory → Nat → Byte → Memory
  | [], a, b => Memory.cons a b []
  | (a', b') :: m, a, b =>
    if a < a' then Memory.cons a b ((a', b') :: m)
    else if a = a' then Memory.cons a b m
    else (a', b') :: Memory.write m a b

/-- The canonical form from address `lo` on: addresses strictly rising, below 0x1000, and no entry equal to what the
unlisted address reads as. -/
def Memory.wfFrom : Nat → Memory → Bool
  | _, [] => true
  | lo, (a, b) :: m => decide (lo ≤ a) && decide (a < 4096) && b != resetByte a && Memory.wfFrom (a + 1) m

/-- The canonical form of a memory. -/
def Memory.wf (m : Memory) : Bool := Memory.wfFrom 0 m

/-- MemRead(a, 1): the byte at `a mod 4096` (00_scope.md R11). -/
def State.memRead (s : State) (a : Nat) : Byte := Memory.read s.mem (a % 4096)

/-- MemWrite(a, 1, b): writes the byte at `a mod 4096` (00_scope.md R11). -/
def State.memWrite (s : State) (a : Nat) (b : Byte) : State := { s with mem := Memory.write s.mem (a % 4096) b }

/-! ### The display (10_state.md R27) -/

/-- disp[c][r]. -/
def Display.cell (d : Display) (c : Fin 64) (r : Fin 32) : Bool := d[c][r]

/-- disp[c][r] <- disp[c][r] XOR 1. -/
def Display.toggle (d : Display) (c : Fin 64) (r : Fin 32) : Display :=
  d.set c.val (d[c].set r.val (!d[c][r]) r.isLt) c.isLt

/-- Bit `k` of the display export: cell (c, r) is bit c + 64 r (60_exceptions.md R130). -/
def State.exportBit (s : State) (k : Fin 2048) : Bool :=
  s.dispExport.cell ⟨k.val % 64, Nat.mod_lt _ (by decide)⟩ ⟨k.val / 64, Nat.div_lt_of_lt_mul k.isLt⟩

/-- export <- disp (40_cycle.md R71). -/
def State.refreshExport (s : State) : State := { s with dispExport := s.disp }

/-! ### The keypad latch (10_state.md R28) -/

/-- key[k]. -/
def State.readKey (s : State) (k : Nibble) : Bool := s.key[k.toNat]'k.isLt

/-! ### The program counter (40_cycle.md R68) -/

/-- How a handler ends (00_scope.md R12). -/
inductive Advance where
  | next
  | skip
  | jumped
  | hold
  deriving DecidableEq, Repr

/-- The cycle's update of pc by the outcome, in 16-bit arithmetic (40_cycle.md R68). -/
def State.advance (s : State) : Advance → State
  | .next => { s with pc := s.pc + 2 }
  | .skip => { s with pc := s.pc + 4 }
  | .jumped => s
  | .hold => s

/-- An instruction that completes with the given outcome. -/
def complete (a : Advance) (s : State) : Host.Outcome State Fault Refusal := .next (s.advance a)

/-- The skips' common rule: Skip when the condition holds, Next otherwise (41_control.md R76). -/
def skipIf (c : Bool) (s : State) : Host.Outcome State Fault Refusal := complete (if c then .skip else .next) s

/-! ### The fault register (10_state.md R30; 40_cycle.md R72; 60_exceptions.md R113, R120) -/

/-- The number of a kind (60_exceptions.md R113). -/
def FaultKind.code : FaultKind → Nat
  | .unknownOpcode => 1
  | .stackOverflow => 2
  | .stackUnderflow => 3
  | .pcOutOfRange => 4
  | .undefinedOperand => 5

/-- The code of a record (10_state.md R30). -/
def FaultRecord.code (r : FaultRecord) : Nat := r.kind.code

/-- The code the fault register shows: 0 for None (60_exceptions.md R113). -/
def State.faultCode (s : State) : Nat :=
  match s.fault with
  | none => 0
  | some r => r.code

/-- Taking an error condition: the fault register is written with the kind, pc, the fetched word and the kind's
data, and nothing else is written (40_cycle.md R72). -/
def State.raise (s : State) (kind : FaultKind) (word info : Word) : State :=
  { s with fault := some { kind := kind, pc := s.pc, word := word, info := info } }

/-- An instruction that raises (40_cycle.md R72). -/
def raised (kind : FaultKind) (word info : Word) (s : State) : Host.Outcome State Fault Refusal :=
  .next (s.raise kind word info)

/-- The return from an error condition, by the host input resume_skip: clears an UnknownOpcode fault and skips the
word; no effect for any other kind or for None (60_exceptions.md R120). -/
def State.resumeSkip (s : State) : State :=
  match s.fault with
  | some r => if r.kind = .unknownOpcode then { s with pc := s.pc + 2, fault := none } else s
  | none => s

/-! ### The call stack (10_state.md R23, R24) -/

/-- stack[sp] <- w; sp <- sp + 1. -/
def State.push (s : State) (w : Word) (h : s.sp.toNat < 16) : State :=
  { s with stack := s.stack.set s.sp.toNat w h, sp := s.sp + 1 }

/-! ### The timers (60_exceptions.md R127) -/

/-- One timer, decremented if nonzero. -/
def decTimer (b : Byte) : Byte := if b = 0 then 0 else b - 1

/-- TimerDecrement() (60_exceptions.md R127). -/
def State.timerDecrement (s : State) : State := { s with dt := decTimer s.dt, st := decTimer s.st }

/-- The end of a cycle that did not raise: the coupled decrement, then the snapshot (40_cycle.md R70, R71). -/
def State.endCycle (s : State) : State :=
  (if s.params.timerCoupled then s.timerDecrement else s).refreshExport

end Sys2Proof.Machine
end

