-- ==== Sys2Proof/Machine/Operands.lean ====
section
/-! DEFINITION. The operand forms: zero extension, addresses formed from I, the shift source, key indices, the digits
of BCD, the pressed keys and the sprite bits. -/

namespace Sys2Proof.Machine

/-- zext_16 of the address field (30_encoding.md R52). -/
def zextAddr (nnn : Addr12) : Word := nnn.setWidth 16

/-- zext_16 of a byte (00_scope.md R9). -/
def zextByte (b : Byte) : Word := b.setWidth 16

/-- zext_8 of a nibble: a key index written to a register (45_keypad_timers.md R110). -/
def zextNibble (k : Nibble) : Byte := k.setWidth 8

/-- The address (I + k) mod 4096 of byte k of a data access (20_memory.md R40). -/
def State.dataAddr (s : State) (k : Nat) : Nat := (s.i.toNat + k) % 4096

/-- The register that SHR and SHL read: V[x] or V[y] by SHIFT_SOURCE (42_alu.md R94, R96). -/
def State.shiftOperand (s : State) (x y : Nibble) : Byte :=
  match s.params.shiftSource with
  | .x => s.readV x
  | .y => s.readV y

/-- A register value as a digit or key index: none above 0xF (43_index_memory.md R100; 45_keypad_timers.md R107). -/
def indexOf (b : Byte) : Option Nibble := if b.toNat ≤ 0xF then some (b.setWidth 4) else none

/-- The address of the glyph of a digit, FONT_BASE + 5 * digit with FONT_BASE = 0x000 (43_index_memory.md R100). -/
def glyphAddr (d : Nibble) : Word := 5 * d.setWidth 16

/-- Decimal digit k of a byte, 0 the hundreds, 1 the tens, 2 the ones (43_index_memory.md R101). -/
def bcdHundreds (b : Byte) : Byte := BitVec.ofNat 8 (b.toNat / 100)

/-- The tens (43_index_memory.md R101). -/
def bcdTens (b : Byte) : Byte := BitVec.ofNat 8 (b.toNat / 10 % 10)

/-- The ones (43_index_memory.md R101). -/
def bcdOnes (b : Byte) : Byte := BitVec.ofNat 8 (b.toNat % 10)

/-- The key indices 0x0 to 0xF. -/
def allKeys : List Nibble := [0x0, 0x1, 0x2, 0x3, 0x4, 0x5, 0x6, 0x7] ++ [0x8, 0x9, 0xA, 0xB, 0xC, 0xD, 0xE, 0xF]

/-- The set of pressed keys, ascending (45_keypad_timers.md R110). -/
def State.pressedKeys (s : State) : List Nibble := allKeys.filter s.readKey

/-- The pressed key a draw selects from `k :: ks`: the n-th, or the last when n is larger. Every pressed key is
selected by some n (45_keypad_timers.md R110; assumption log 3). -/
def chooseKey : Nibble → List Nibble → Nat → Nibble
  | k, [], _ => k
  | k, _ :: _, 0 => k
  | _, k' :: ks, n + 1 => chooseKey k' ks n

/-- Pixel c of a sprite byte, 0 the leftmost: bit 7 - c (44_display.md R105). -/
def spriteBit (b : Byte) (c : Nat) : Bool := b.getLsbD (7 - c)

end Sys2Proof.Machine
end

