-- ==== Sys2Proof/Machine/Flags.lean ====
section
/-! DEFINITION. The values written to VF as a flag (10_state.md R18; 42_alu.md R85). The core has no other flag
(10_state.md R19). -/

namespace Sys2Proof.Machine

/-- A condition as the byte 1 or 0. -/
def flagByte (c : Bool) : Byte := if c then 1 else 0

/-- Carry: 1 when a + b > 255 (42_alu.md R92). -/
def carryFlag (a b : Byte) : Byte := flagByte (decide (255 < a.toNat + b.toNat))

/-- No borrow in a - b: 1 when a >= b (42_alu.md R93, R95). -/
def noBorrowFlag (a b : Byte) : Byte := flagByte (decide (b.toNat ≤ a.toNat))

/-- The bit a right shift by one puts out, bit 0 (42_alu.md R94). -/
def shiftedOutRight (s : Byte) : Byte := flagByte (s.getLsbD 0)

/-- The bit a left shift by one puts out, bit 7 (42_alu.md R96). -/
def shiftedOutLeft (s : Byte) : Byte := flagByte (s.getLsbD 7)

/-- Collision: 1 when a set sprite bit met a cell that was on (44_display.md R106). -/
def collisionFlag (c : Bool) : Byte := flagByte c

end Sys2Proof.Machine
end

