-- ==== Sys2Proof/Machine/Alu.lean ====
section
/-! DEFINITION. Register loads and the ALU (42_alu.md R85 to R97). Every operand is read from the state before any
write; the result is written first and VF last (R85). -/

namespace Sys2Proof.Machine

/-- LD Vx, kk (R86). -/
def execLdImm (x : Nibble) (kk : Byte) (s : State) : Host.Outcome State Fault Refusal :=
  complete .next (s.writeV x kk)

/-- ADD Vx, kk (R87): no flag. -/
def execAddImm (x : Nibble) (kk : Byte) (s : State) : Host.Outcome State Fault Refusal :=
  complete .next (s.writeV x (s.readV x + kk))

/-- LD Vx, Vy (R88). -/
def execLdReg (x y : Nibble) (s : State) : Host.Outcome State Fault Refusal :=
  complete .next (s.writeV x (s.readV y))

/-- OR Vx, Vy (R89). -/
def execOrReg (x y : Nibble) (s : State) : Host.Outcome State Fault Refusal :=
  complete .next (s.writeV x (s.readV x ||| s.readV y))

/-- AND Vx, Vy (R90). -/
def execAndReg (x y : Nibble) (s : State) : Host.Outcome State Fault Refusal :=
  complete .next (s.writeV x (s.readV x &&& s.readV y))

/-- XOR Vx, Vy (R91). -/
def execXorReg (x y : Nibble) (s : State) : Host.Outcome State Fault Refusal :=
  complete .next (s.writeV x (s.readV x ^^^ s.readV y))

/-- ADD Vx, Vy (R92): VF is the carry. -/
def execAddReg (x y : Nibble) (s : State) : Host.Outcome State Fault Refusal :=
  let a := s.readV x
  let b := s.readV y
  complete .next (s.writeResultFlag x (a + b) (carryFlag a b))

/-- SUB Vx, Vy (R93): VF is 1 when there is no borrow. -/
def execSubReg (x y : Nibble) (s : State) : Host.Outcome State Fault Refusal :=
  let a := s.readV x
  let b := s.readV y
  complete .next (s.writeResultFlag x (a - b) (noBorrowFlag a b))

/-- SHR Vx {, Vy} (R94): VF is bit 0 of the source. -/
def execShr (x y : Nibble) (s : State) : Host.Outcome State Fault Refusal :=
  let a := s.shiftOperand x y
  complete .next (s.writeResultFlag x (a >>> 1) (shiftedOutRight a))

/-- SUBN Vx, Vy (R95): V[y] - V[x]; VF is 1 when there is no borrow. -/
def execSubnReg (x y : Nibble) (s : State) : Host.Outcome State Fault Refusal :=
  let a := s.readV x
  let b := s.readV y
  complete .next (s.writeResultFlag x (b - a) (noBorrowFlag b a))

/-- SHL Vx {, Vy} (R96): VF is bit 7 of the source. -/
def execShl (x y : Nibble) (s : State) : Host.Outcome State Fault Refusal :=
  let a := s.shiftOperand x y
  complete .next (s.writeResultFlag x (a <<< 1) (shiftedOutLeft a))

/-- RND Vx, kk (R97): a free byte AND kk (assumption log 3). -/
def execRnd (x : Nibble) (kk : Byte) (s : State) : Host.Outcome State Fault Refusal :=
  complete .next { s.writeV x (Config.rngByte s.draws &&& kk) with draws := s.draws + 1 }

end Sys2Proof.Machine
end

