-- ==== Sys2Proof/Machine/Control.lean ====
section
/-! DEFINITION. Control transfer and skips (41_control.md R76 to R84). -/

namespace Sys2Proof.Machine

/-- RET (R77): pops the CALL's address and advances past it; StackUnderflow at sp = 0. -/
def execRet (s : State) : Host.Outcome State Fault Refusal :=
  if s.sp = 0 then raised .stackUnderflow (encode .ret) (zextByte s.sp) s
  else
    if h : s.sp.toNat - 1 < 16 then
      complete .next { s with sp := s.sp - 1, pc := s.stack[s.sp.toNat - 1]'h }
    else .fault (.spOutOfRange s.sp)

/-- JP nnn (R78). -/
def execJp (nnn : Addr12) (s : State) : Host.Outcome State Fault Refusal :=
  complete .jumped { s with pc := zextAddr nnn }

/-- CALL nnn (R79): pushes its own address; StackOverflow at sp = 16. -/
def execCall (nnn : Addr12) (s : State) : Host.Outcome State Fault Refusal :=
  if s.sp = 16 then raised .stackOverflow (encode (.call nnn)) (zextByte s.sp) s
  else
    if h : s.sp.toNat < 16 then complete .jumped { s.push s.pc h with pc := zextAddr nnn }
    else .fault (.spOutOfRange s.sp)

/-- SE Vx, kk (R80). -/
def execSeImm (x : Nibble) (kk : Byte) (s : State) : Host.Outcome State Fault Refusal :=
  skipIf (s.readV x == kk) s

/-- SNE Vx, kk (R81). -/
def execSneImm (x : Nibble) (kk : Byte) (s : State) : Host.Outcome State Fault Refusal :=
  skipIf (s.readV x != kk) s

/-- SE Vx, Vy (R82). -/
def execSeReg (x y : Nibble) (s : State) : Host.Outcome State Fault Refusal :=
  skipIf (s.readV x == s.readV y) s

/-- SNE Vx, Vy (R83). -/
def execSneReg (x y : Nibble) (s : State) : Host.Outcome State Fault Refusal :=
  skipIf (s.readV x != s.readV y) s

/-- JP V0, nnn (R84): the 16-bit sum, not reduced. -/
def execJpV0 (nnn : Addr12) (s : State) : Host.Outcome State Fault Refusal :=
  complete .jumped { s with pc := zextAddr nnn + zextByte (s.readV 0) }

end Sys2Proof.Machine
end

