-- ==== Sys2Proof/Machine/DisplayInstr.lean ====
section
/-! DEFINITION. The display instructions (44_display.md R104 to R106). -/

namespace Sys2Proof.Machine

/-- CLS (R104): every cell off; VF is not written. -/
def execCls (s : State) : Host.Outcome State Fault Refusal :=
  complete .next { s with disp := blankDisplay }

/-- One pixel of a sprite row: where the sprite bit is 1 the cell under it is toggled, and a cell that was on is a
collision. Columns wrap (R106). -/
def drawPixel (b : Byte) (x0 : Nat) (row : Fin 32) (c : Nat) (a : Display × Bool) : Display × Bool :=
  if spriteBit b c then
    let col := Fin.ofNat 64 (x0 + c)
    (a.1.toggle col row, a.2 || a.1.cell col row)
  else a

/-- One sprite row of eight pixels, left to right. -/
def drawRow (b : Byte) (x0 : Nat) (row : Fin 32) (a : Display × Bool) : Display × Bool :=
  forUpTo 8 (drawPixel b x0 row) a

/-- The n sprite rows at column x0 and row y0, with the sprite bytes given by row; rows wrap (R106). -/
def drawSprite (sprite : Nat → Byte) (x0 y0 n : Nat) (d : Display) : Display × Bool :=
  forUpTo n (fun r a => drawRow (sprite r) x0 (Fin.ofNat 32 (y0 + r)) a) (d, false)

/-- DRW Vx, Vy, n (R106): the coordinates are read before any write and VF, the collision, is written last. -/
def execDrw (x y n : Nibble) (s : State) : Host.Outcome State Fault Refusal :=
  let x0 := (s.readV x).toNat % 64
  let y0 := (s.readV y).toNat % 32
  let drawn := drawSprite (fun r => s.memRead (s.dataAddr r)) x0 y0 n.toNat s.disp
  complete .next ({ s with disp := drawn.1 }.writeV flagReg (collisionFlag drawn.2))

end Sys2Proof.Machine
end

