-- ==== Sys2Proof/Machine/IndexMemory.lean ====
section
/-! DEFINITION. The address register and memory transfers (43_index_memory.md R98 to R103). No memory access changes
I; every byte's address is (I + k) mod 4096 (20_memory.md R40). -/

namespace Sys2Proof.Machine

/-- LD I, nnn (R98). -/
def execLdI (nnn : Addr12) (s : State) : Host.Outcome State Fault Refusal :=
  complete .next { s with i := zextAddr nnn }

/-- ADD I, Vx (R99): 16-bit, no flag. -/
def execAddI (x : Nibble) (s : State) : Host.Outcome State Fault Refusal :=
  complete .next { s with i := s.i + zextByte (s.readV x) }

/-- LD F, Vx (R100): UndefinedOperand above 0xF. -/
def execLdF (x : Nibble) (s : State) : Host.Outcome State Fault Refusal :=
  match indexOf (s.readV x) with
  | none => raised .undefinedOperand (encode (.ldF x)) (zextByte (s.readV x)) s
  | some d => complete .next { s with i := glyphAddr d }

/-- LD B, Vx (R101): hundreds, tens, ones at I, I+1, I+2. -/
def execLdB (x : Nibble) (s : State) : Host.Outcome State Fault Refusal :=
  let b := s.readV x
  complete .next
    (((s.memWrite (s.dataAddr 0) (bcdHundreds b)).memWrite (s.dataAddr 1) (bcdTens b)).memWrite (s.dataAddr 2) (bcdOnes b))

/-- The registers V[0] to V[n-1] written to I, I+1, ... (R102). -/
def State.storeRegs (s : State) (n : Nat) : State :=
  forUpTo n (fun k t => t.memWrite (s.dataAddr k) (s.readV (BitVec.ofNat 4 k))) s

/-- LD [I], Vx (R102): x + 1 bytes, ascending. -/
def execStoreRegs (x : Nibble) (s : State) : Host.Outcome State Fault Refusal :=
  complete .next (s.storeRegs (x.toNat + 1))

/-- The registers V[0] to V[n-1] read from I, I+1, ... (R103). -/
def State.loadRegs (s : State) (n : Nat) : State :=
  forUpTo n (fun k t => t.writeV (BitVec.ofNat 4 k) (s.memRead (s.dataAddr k))) s

/-- LD Vx, [I] (R103): x + 1 bytes, ascending. -/
def execLoadRegs (x : Nibble) (s : State) : Host.Outcome State Fault Refusal :=
  complete .next (s.loadRegs (x.toNat + 1))

end Sys2Proof.Machine
end

