-- ==== Sys2Proof/Machine/KeypadTimers.lean ====
section
/-! DEFINITION. Keypad and timer instructions (45_keypad_timers.md R107 to R112). -/

namespace Sys2Proof.Machine

/-- SKP Vx (R107): UndefinedOperand above 0xF. The nibble y is ignored; it only stands in the recorded word. -/
def execSkp (x y : Nibble) (s : State) : Host.Outcome State Fault Refusal :=
  match indexOf (s.readV x) with
  | none => raised .undefinedOperand (encode (.skp x y)) (zextByte (s.readV x)) s
  | some k => skipIf (s.readKey k) s

/-- SKNP Vx (R108): UndefinedOperand above 0xF. The nibble y is ignored; it only stands in the recorded word. -/
def execSknp (x y : Nibble) (s : State) : Host.Outcome State Fault Refusal :=
  match indexOf (s.readV x) with
  | none => raised .undefinedOperand (encode (.sknp x y)) (zextByte (s.readV x)) s
  | some k => skipIf (!s.readKey k) s

/-- LD Vx, DT (R109). -/
def execLdVxDT (x : Nibble) (s : State) : Host.Outcome State Fault Refusal :=
  complete .next (s.writeV x s.dt)

/-- LD Vx, K (R110): Hold while no key is pressed, else V[x] receives a pressed key, a free choice
(assumption log 3). -/
def execLdVxK (x : Nibble) (s : State) : Host.Outcome State Fault Refusal :=
  match s.pressedKeys with
  | [] => complete .hold s
  | k :: ks =>
    complete .next
      { s.writeV x (zextNibble (chooseKey k ks (Config.keyChoice s.draws))) with draws := s.draws + 1 }

/-- LD DT, Vx (R111). -/
def execLdDTVx (x : Nibble) (s : State) : Host.Outcome State Fault Refusal :=
  complete .next { s with dt := s.readV x }

/-- LD ST, Vx (R112). -/
def execLdSTVx (x : Nibble) (s : State) : Host.Outcome State Fault Refusal :=
  complete .next { s with st := s.readV x }

end Sys2Proof.Machine
end

