-- ==== Sys2Proof/Machine/Cycle.lean ====
section
/-! DEFINITION. The parts of one cycle around the handler: the pc check, the fetch and the end of the cycle
(40_cycle.md R66 to R73). -/

namespace Sys2Proof.Machine

/-- The fetch check: pc is even and in [0x200, 0xFFE] (40_cycle.md R66). -/
def pcInRange (pc : Word) : Bool := !pc.getLsbD 0 && decide (0x200 ≤ pc.toNat) && decide (pc.toNat ≤ 0xFFE)

/-- The word at pc, the byte at pc in bits 15..8 (40_cycle.md R66, 20_memory.md R38). -/
def State.fetchWord (s : State) : Word := wordOfBytes (s.memRead s.pc.toNat) (s.memRead (s.pc.toNat + 1))

/-- The end of the cycle after a handler: a cycle that did not raise decrements coupled timers and refreshes the
export (40_cycle.md R70, R71); one that raised ends at once (R72). A handler runs only when no fault is held, so the
fault register says whether it raised. -/
def finishCycle : Host.Outcome State Fault Refusal → Host.Outcome State Fault Refusal
  | .next t => if t.fault.isSome then .next t else .next t.endCycle
  | .fault f => .fault f
  | .refused r => .refused r

/-- Decode and dispatch of a fetched word (40_cycle.md R67): UnknownOpcode where no instruction has it. -/
def dispatchWord (w : Word) (s : State) : Host.Outcome State Fault Refusal :=
  match decode s.params.canonicalDecode w with
  | .ok i => finishCycle (exec i s)
  | .error _ => raised .unknownOpcode w w s

/-- One cycle in a state that holds no fault (40_cycle.md R73). -/
def cycle (s : State) : Host.Outcome State Fault Refusal :=
  if pcInRange s.pc then dispatchWord s.fetchWord s else raised .pcOutOfRange 0 s.pc s

/-- `s` with the big-endian word `w` at pc (20_memory.md R38). -/
def State.placeWord (s : State) (w : Word) : State :=
  (s.memWrite s.pc.toNat (highByte w)).memWrite (s.pc.toNat + 1) (lowByte w)

end Sys2Proof.Machine
end

