-- ==== Sys2Proof/Machine/Step.lean ====
section
/-! DEFINITION. One step: one cycle input (40_cycle.md R65, R73). -/

namespace Sys2Proof.Machine

/-- One cycle input. A state that holds a fault has no cycle step (40_cycle.md R65; assumption log 1). -/
def step (s : State) : Host.Outcome State Fault Refusal :=
  match s.fault with
  | some r => .fault (.halted r)
  | none => cycle s

/-- `s` with the instruction word `w` where the next cycle fetches it, at pc; the bits above `nbits` are 0
(assumption log 7). -/
def State.withFetchWord (s : State) (nbits w : Nat) : State := s.placeWord (BitVec.ofNat 16 (w % 2 ^ nbits))

end Sys2Proof.Machine
end

