-- ==== Sys2Proof/Machine/Inputs.lean ====
section
/-! DEFINITION. The host's inputs and outputs (60_exceptions.md R126 to R133; 70_reset_and_hazards.md R138, R139).
Each input is one atomic action between cycles. -/

namespace Sys2Proof.Machine

/-- The inputs (60_exceptions.md R133). -/
inductive HostInput where
  | cycle
  | tick
  | setKey (k : Nibble) (pressed : Bool)
  | load (image : List Byte)
  | reset
  | resumeSkip
  deriving DecidableEq, Repr

/-- The result of a load (60_exceptions.md R132). -/
inductive LoadResult where
  | ok
  | programTooLarge
  deriving DecidableEq, Repr

/-- The result's code: 6 for ProgramTooLarge (60_exceptions.md R113); 0 for Ok is a DESIGN CHOICE (assumption log 9). -/
def LoadResult.code : LoadResult → Nat
  | .ok => 0
  | .programTooLarge => 6

/-- The tick: the timer decrement when TIMER_COUPLED is false, nothing when it is true; a held fault does not matter
(60_exceptions.md R126). -/
def State.tick (s : State) : State := if s.params.timerCoupled then s else s.timerDecrement

/-- set_key(k, b) (60_exceptions.md R129). -/
def State.setKey (s : State) (k : Nibble) (pressed : Bool) : State :=
  { s with key := s.key.set k.toNat pressed k.isLt }

/-- The registers, stack, timers, display, fault and export at their reset values: what Reset and Reload share
(70_reset_and_hazards.md R138, R139). -/
def State.clearRegisters (s : State) : State :=
  { s with
    v := Vector.replicate 16 0x00, i := 0x0000, pc := 0x0200, sp := 0, stack := Vector.replicate 16 0x0000,
    dt := 0, st := 0, disp := blankDisplay, fault := none, dispExport := blankDisplay }

/-- A memory with the font at 0x000 and zeros above it (70_reset_and_hazards.md R138). -/
def fontMemory (f : Font) : Memory := forUpTo 80 (fun a m => Memory.write m a (fontByte f a)) []

/-- Reset (70_reset_and_hazards.md R138): every field of the spec at its reset value, with the machine's own font; the
parameters and the draw counter stay (assumption log 11). -/
def State.hostReset (s : State) : State :=
  { s.clearRegisters with mem := fontMemory s.params.font, key := Vector.replicate 16 false }

/-- A memory whose bytes from 0x050 on are zeroed and whose font bytes are kept (70_reset_and_hazards.md R139). -/
def Memory.keepFont (m : Memory) : Memory := m.filter (fun c => decide (c.1 < 0x050))

/-- Reload (70_reset_and_hazards.md R139): the font bytes and the keys are kept. -/
def State.reload (s : State) : State := { s.clearRegisters with mem := Memory.keepFont s.mem }

/-- The image written from an address on, in order (60_exceptions.md R132). -/
def State.writeImage (s : State) (a : Nat) : List Byte → State
  | [] => s
  | b :: image => (s.memWrite a b).writeImage (a + 1) image

/-- The largest image, 4096 - 512 bytes (00_scope.md R7). -/
def maxProgram : Nat := 3584

/-- load(image) (60_exceptions.md R132): a larger image changes nothing. -/
def State.load (s : State) (image : List Byte) : LoadResult × State :=
  if maxProgram < image.length then (.programTooLarge, s)
  else (.ok, s.reload.writeImage 0x200 image)

/-- The effect of one input (60_exceptions.md R133). A cycle input has no effect while a fault is held
(40_cycle.md R65). -/
def HostInput.apply (inp : HostInput) (s : State) : State :=
  match inp with
  | .cycle =>
    match step s with
    | .next t => t
    | .fault _ => s
    | .refused _ => s
  | .tick => s.tick
  | .setKey k b => s.setKey k b
  | .load image => (s.load image).2
  | .reset => s.hostReset
  | .resumeSkip => s.resumeSkip

/-- A sequence of inputs, taken one at a time in the order the host issues them (60_exceptions.md R133). -/
def runInputs : List HostInput → State → State
  | [], s => s
  | inp :: rest, s => runInputs rest (inp.apply s)

/-- The sound output: the value of ST (60_exceptions.md R131). -/
def State.soundOutput (s : State) : Byte := s.st

/-- The fault report: the fault register (60_exceptions.md R119). -/
def State.faultReport (s : State) : Option FaultRecord := s.fault

end Sys2Proof.Machine
end

