-- ==== Sys2Proof/Safety.lean ====
section
/-! DEFINITION. The vocabulary of the claims: the parts of the state, what an update leaves unchanged, the invariant of
every run, and the two predicates the spec defines for claims (70_reset_and_hazards.md R145). -/

namespace Sys2Proof.Machine

/-! ### Frames -/

/-- The parts of the state: one per field. -/
inductive Part where
  | v | i | pc | sp | stack | dt | st | mem | disp | key | fault | dispExport | params | draws
  deriving DecidableEq, Repr

/-- A part reads the same in two states: registers, memory and displays by every single read. -/
def Part.same (s t : State) : Part → Prop
  | .v => ∀ r, t.readV r = s.readV r
  | .i => t.i = s.i
  | .pc => t.pc = s.pc
  | .sp => t.sp = s.sp
  | .stack => t.stack = s.stack
  | .dt => t.dt = s.dt
  | .st => t.st = s.st
  | .mem => ∀ a, t.memRead a = s.memRead a
  | .disp => ∀ c r, t.disp.cell c r = s.disp.cell c r
  | .key => ∀ k, t.readKey k = s.readKey k
  | .fault => t.fault = s.fault
  | .dispExport => ∀ c r, t.dispExport.cell c r = s.dispExport.cell c r
  | .params => t.params = s.params
  | .draws => t.draws = s.draws

/-- From `s` to `t` every part is unchanged but the listed ones. -/
def Unchanged (except : List Part) (s t : State) : Prop := ∀ p, p ∉ except → p.same s t

/-- `exec` answers a next state for the instruction, and that state has the property. -/
def Completes (i : Instr) (s : State) (P : State → Prop) : Prop := ∃ t, exec i s = .next t ∧ P t

/-- `exec` answers the state that differs from `s` in the fault register alone, which records the condition
(40_cycle.md R72). -/
def Raises (i : Instr) (s : State) (kind : FaultKind) (info : Word) : Prop :=
  exec i s = .next { s with fault := some { kind := kind, pc := s.pc, word := encode i, info := info } }

/-- The next cycle's fetch raises PcOutOfRange and writes nothing else (40_cycle.md R66, R72). -/
def NextFetchRaises (t : State) : Prop :=
  step t = .next { t with fault := some { kind := .pcOutOfRange, pc := t.pc, word := 0, info := t.pc } }

/-- The instruction's word is `n`, and `n` decodes to it in every mode that admits it (30_encoding.md R59, R60). -/
def HasWord (i : Instr) (n : Nat) : Prop :=
  (encode i).toNat = n ∧ ∀ c, i.wellFormed c = true → decode c (BitVec.ofNat 16 n) = .ok i

/-- A sprite of height n at I, drawn at (V[x], V[y]), has a set bit over cell (c, r): bit 7 - dc of byte dr, with the
columns wrapping modulo 64 and the rows modulo 32 (44_display.md R105, R106). -/
def SpriteCovers (s : State) (x y n : Nibble) (c : Fin 64) (r : Fin 32) : Prop :=
  ∃ dr dc : Nat, dr < n.toNat ∧ dc < 8 ∧ c.val = ((s.readV x).toNat + dc) % 64 ∧ r.val = ((s.readV y).toNat + dr) % 32 ∧
    (s.memRead (s.i.toNat + dr)).getLsbD (7 - dc) = true

/-! ### The invariant of every run -/

/-- Every entry below sp is the address of a CALL that was fetched (41_control.md R79). -/
abbrev StackOk (s : State) : Prop := ∀ j : Fin 16, j.val < s.sp.toNat → pcInRange (s.stack[j]) = true

/-- A held fault records the current pc, and its kind is PcOutOfRange exactly when that pc fails the fetch check
(60_exceptions.md R119, R121). -/
def FaultOk (s : State) : Bool :=
  match s.fault with
  | none => true
  | some r => r.pc == s.pc && (decide (r.kind = .pcOutOfRange) == !pcInRange s.pc)

/-- What holds of every state between two host inputs: memory is canonical, sp is in [0, 16] (10_state.md R23), the
stack holds addresses of CALLs (41_control.md R79), pc is at most 0x10FE (10_state.md R21), the export is the display
(60_exceptions.md R130), and a held fault is precise (60_exceptions.md R119). -/
abbrev Inv (s : State) : Prop :=
  Memory.wf s.mem = true ∧ s.sp.toNat ≤ 16 ∧ StackOk s ∧ s.pc.toNat ≤ 0x10FE ∧ s.dispExport = s.disp ∧ FaultOk s = true

/-! ### The predicates of 70_reset_and_hazards.md R145 -/

/-- No fault, pc passes the fetch check, and the word at pc is a JP to its own address. -/
abbrev Parked (s : State) : Prop := s.fault = none ∧ pcInRange s.pc = true ∧ s.fetchWord = 0x1000 ||| s.pc

/-- A fault is held. -/
abbrev Faulted (s : State) : Prop := s.fault ≠ none

end Sys2Proof.Machine
end

