-- ==== Sys2Proof/Certificates/Slice0/Obligations.lean ====
section
/-! DEFINITION. The statements for the provers, from the numbered rules of spec/. `Completes i s P` says that exec
answers a next state with P; `Unchanged ps s t` that every part but those in ps reads the same (memory, registers and
displays by each single read); `HasWord i n` that n is the word of i and decodes to it. The numbers of the encodings are
30_encoding.md R59's, which the spec marks as general knowledge but for 0x00E0 and 0x00EE (GK1 to GK4). -/

open Sys2Proof Sys2Proof.Machine

/-! ### Encoding (30_encoding.md) -/

/-- Words written out from the spec decode to their instructions (R59; vectors TD1 to TD24). -/
def Obligations.SampleWordsDecode : Prop :=
  decode false 0x00E0#16 = .ok .cls ∧ decode false 0x00EE#16 = .ok .ret ∧
  decode false 0x1ABC#16 = .ok (.jp 0xABC) ∧ decode false 0x3342#16 = .ok (.seImm 0x3 0x42) ∧
  decode false 0x5121#16 = .ok (.seReg 0x1 0x2 0x1) ∧ decode true 0x5121#16 = .error (.unknownOpcode 0x5121) ∧
  decode false 0x812E#16 = .ok (.shl 0x1 0x2) ∧ decode false 0xA2F0#16 = .ok (.ldI 0x2F0) ∧
  decode false 0xD015#16 = .ok (.drw 0x0 0x1 0x5) ∧ decode true 0xE19E#16 = .ok (.skp 0x1 0x9) ∧
  decode true 0xE111#16 = .error (.unknownOpcode 0xE111) ∧ decode false 0xF165#16 = .ok (.loadRegs 0x1) ∧
  decode false 0x0123#16 = .error (.unknownOpcode 0x0123)

/-- Decoding the word of a well-formed instruction gives it back, in both modes (R59, R60, R63). -/
def Obligations.DecodeEncodeAgree : Prop :=
  ∀ (c : Bool) (i : Instr), i.wellFormed c = true → decode c (encode i) = .ok i

/-- A word that decodes is the word of its instruction, and that instruction is well formed (R59, R60, R63). -/
def Obligations.EncodeDecodeAgree : Prop :=
  ∀ (c : Bool) (w : Word) (i : Instr), decode c w = .ok i → encode i = w ∧ i.wellFormed c = true

/-- A word is Unknown exactly when no row of the opcode map selects it, in both modes (R59, R60, R61). -/
def Obligations.UnknownIffNoRowSelects : Prop :=
  ∀ (c : Bool) (w : Word),
    decode c w = .error (.unknownOpcode w) ↔ ∀ r ∈ opcodeTable c, r.selects w = false

/-- The illegal words of doc mode, and the further ones of canonical mode, by their fields (R61's two lists). -/
def Obligations.IllegalWordsListed : Prop :=
  ∀ w : Word,
    ((∃ e, decode false w = .error e) ↔
      (w.toNat / 4096 = 0x0 ∧ w.toNat ≠ 0x00E0 ∧ w.toNat ≠ 0x00EE) ∨
      (w.toNat / 4096 = 0x8 ∧ w.toNat % 16 ∈ [0x8, 0x9, 0xA, 0xB, 0xC, 0xD, 0xF]) ∨
      (w.toNat / 4096 = 0xE ∧ w.toNat % 16 ≠ 0x1 ∧ w.toNat % 16 ≠ 0xE) ∨
      (w.toNat / 4096 = 0xF ∧ w.toNat % 256 ∉ [0x07, 0x0A, 0x15, 0x18, 0x1E, 0x29, 0x33, 0x55, 0x65])) ∧
    ((∃ e, decode true w = .error e) ↔
      (∃ e, decode false w = .error e) ∨
      ((w.toNat / 4096 = 0x5 ∨ w.toNat / 4096 = 0x9) ∧ w.toNat % 16 ≠ 0x0) ∨
      (w.toNat / 4096 = 0xE ∧ w.toNat % 16 = 0xE ∧ w.toNat / 16 % 16 ≠ 0x9) ∨
      (w.toNat / 4096 = 0xE ∧ w.toNat % 16 = 0x1 ∧ w.toNat / 16 % 16 ≠ 0xA))

/-- The decoder of bytes consumes exactly two, most significant first, and leaves the rest (R49, R63). -/
def Obligations.DecodeBytesConsumesTwo : Prop :=
  ∀ (c : Bool) (i : Instr) (rest : List Byte), i.wellFormed c = true →
    (encodeBytes i).length = 2 ∧ decodeBytes c (encodeBytes i ++ rest) = .ok (i, rest)

/-! ### The cycle (40_cycle.md) -/

/-- A step runs the decoded instruction: where no fault is held, pc passes the fetch check and the fetched word
decodes to i, step is exec of i followed by the end of the cycle (R67, R73). -/
def Obligations.StepRunsDecoded : Prop :=
  ∀ (s : State) (i : Instr), s.fault = none → pcInRange s.pc = true →
    decode s.params.canonicalDecode s.fetchWord = .ok i → step s = finishCycle (exec i s)

/-- The end of the cycle: a state in which the handler raised is left as it is; any other has its timers decremented
once if TIMER_COUPLED, its export refreshed to the display, and nothing else changed (R70, R71, R72). -/
def Obligations.CycleEndDecrementsAndExports : Prop :=
  ∀ t : State,
    (t.fault ≠ none → finishCycle (.next t) = .next t) ∧
    (t.fault = none →
      ∃ u, finishCycle (.next t) = .next u ∧
        u.dt.toNat = (if t.params.timerCoupled then t.dt.toNat - 1 else t.dt.toNat) ∧
        u.st.toNat = (if t.params.timerCoupled then t.st.toNat - 1 else t.st.toNat) ∧
        (∀ c r, u.dispExport.cell c r = t.disp.cell c r) ∧
        Unchanged [.dt, .st, .dispExport] t u)

/-- The fetched word has the byte at pc in bits 15..8 and the byte at pc + 1 in bits 7..0 (20_memory.md R38). -/
def Obligations.FetchIsBigEndian : Prop :=
  ∀ s : State, s.fetchWord.toNat = 256 * (s.memRead s.pc.toNat).toNat + (s.memRead (s.pc.toNat + 1)).toNat

/-- A pc that is odd, below 0x200 or above 0xFFE raises PcOutOfRange at fetch: the record holds pc, the word 0 and pc
as its info, and nothing else changes (R66, R72). -/
def Obligations.BadPcRaises : Prop :=
  ∀ s : State, s.fault = none → (s.pc.toNat % 2 = 1 ∨ s.pc.toNat < 0x200 ∨ 0xFFE < s.pc.toNat) →
    step s = .next { s with fault := some { kind := .pcOutOfRange, pc := s.pc, word := 0, info := s.pc } }

/-- At a pc that passes the check, a word no instruction has raises UnknownOpcode with the word and pc (R67, R72). -/
def Obligations.UnknownWordRaises : Prop :=
  ∀ (s : State) (e : DecodeError), s.fault = none →
    (s.pc.toNat % 2 = 0 ∧ 0x200 ≤ s.pc.toNat ∧ s.pc.toNat ≤ 0xFFE) →
    decode s.params.canonicalDecode s.fetchWord = .error e →
    step s = .next { s with
      fault := some { kind := .unknownOpcode, pc := s.pc, word := s.fetchWord, info := s.fetchWord } }

/-- A state that holds a fault has no cycle step: step stops (the model's reading of R65, assumption log 1), and the
cycle input changes nothing. -/
def Obligations.FaultedStateTakesNoCycle : Prop :=
  ∀ (s : State) (r : FaultRecord), s.fault = some r →
    step s = .fault (.halted r) ∧ HostInput.cycle.apply s = s

/-- A raise writes the fault register and nothing else: pc of the cycle, the fetched word (0 where none was fetched)
and the data of the kind (R72; 60_exceptions.md R113, R119). -/
def Obligations.RaiseWritesOnlyFault : Prop :=
  ∀ (s t : State) (r : FaultRecord), step s = .next t → t.fault = some r →
    t = { s with fault := some r } ∧ r.pc = s.pc ∧ r.word = (if pcInRange s.pc then s.fetchWord else 0) ∧
    match r.kind with
    | .unknownOpcode => r.code = 1 ∧ r.info = s.fetchWord
    | .stackOverflow => r.code = 2 ∧ s.sp = 16 ∧ r.info = 16
    | .stackUnderflow => r.code = 3 ∧ s.sp = 0 ∧ r.info = 0
    | .pcOutOfRange => r.code = 4 ∧ r.info = s.pc
    | .undefinedOperand =>
      r.code = 5 ∧ 0xF < (s.readV (fieldX s.fetchWord)).toNat ∧
        r.info.toNat = (s.readV (fieldX s.fetchWord)).toNat

/-- Every cycle of a state without a fault that meets the invariant answers a next state: no cycle stops the machine
(R73, R74). -/
def Obligations.UnfaultedCycleCompletes : Prop :=
  ∀ s : State, Inv s → s.fault = none → ∃ t, step s = .next t

/-! ### Invariants -/

/-- Every step keeps the invariant: canonical memory, sp in [0, 16], the stack of fetched CALL addresses, pc at most
0x10FE, the export equal to the display, precise faults (10_state.md R21, R23; 41_control.md R79). -/
def Obligations.InvariantKeptByStep : Prop :=
  ∀ s t : State, Inv s → step s = .next t → Inv t

/-- Every host input keeps the invariant, and so does every sequence of inputs (60_exceptions.md R133, R134). -/
def Obligations.InvariantKeptByInputs : Prop :=
  ∀ (inputs : List HostInput) (s : State), Inv s → Inv (runInputs inputs s)

/-- The invariant holds at reset. -/
def Obligations.InvariantAtReset : Prop := Inv State.reset

/-- Every piece of state the spec names holds its reset value (10_state.md R33); memory below 0x050 holds the default
FONT, glyph d at 5d (R32). -/
def Obligations.ResetValues : Prop :=
  (∀ (d : Fin 16) (k : Fin 5), State.reset.memRead (5 * d.val + k.val) = (defaultFont[d])[k]) ∧
  (∀ a, 0x050 ≤ a → a ≤ 0xFFF → State.reset.memRead a = 0x00) ∧
  (∀ r, State.reset.readV r = 0x00) ∧ State.reset.i = 0x0000 ∧ State.reset.pc = 0x0200 ∧ State.reset.sp = 0 ∧
  (∀ j : Fin 16, State.reset.stack[j] = 0x0000) ∧ State.reset.dt = 0 ∧ State.reset.st = 0 ∧
  (∀ c r, State.reset.disp.cell c r = false) ∧ (∀ k, State.reset.readKey k = false) ∧ State.reset.fault = none

/-- Two canonical memories that read the same below 0x1000 are the same data (20_memory.md R34, R36). -/
def Obligations.CanonicalMemoryUnique : Prop :=
  ∀ m m' : Memory, Memory.wf m = true → Memory.wf m' = true →
    (∀ a, a < 4096 → Memory.read m a = Memory.read m' a) → m = m'

/-! ### Which instructions write which state -/

/-- No instruction writes the keys, the export or a parameter; only CLS and DRW write the display, LD B and LD [I]
memory, CALL and RET the stack pointer, CALL the stack, LD I, ADD I and LD F the address register, LD DT the delay
timer, LD ST the sound timer (10_state.md R20, R23 to R28; 60_exceptions.md R129). -/
def Obligations.OnlyNamedInstructionsWrite : Prop :=
  ∀ (i : Instr) (s t : State), exec i s = .next t →
    t.key = s.key ∧ t.dispExport = s.dispExport ∧ t.params = s.params ∧
    (t.disp ≠ s.disp → i = .cls ∨ ∃ x y n, i = .drw x y n) ∧
    (t.mem ≠ s.mem → ∃ x, i = .ldB x ∨ i = .storeRegs x) ∧
    (t.sp ≠ s.sp → i = .ret ∨ ∃ nnn, i = .call nnn) ∧
    (t.stack ≠ s.stack → ∃ nnn, i = .call nnn) ∧
    (t.i ≠ s.i → (∃ nnn, i = .ldI nnn) ∨ ∃ x, i = .addI x ∨ i = .ldF x) ∧
    (t.dt ≠ s.dt → ∃ x, i = .ldDTVx x) ∧
    (t.st ≠ s.st → ∃ x, i = .ldSTVx x)

/-! ### Control transfer and skips (41_control.md) -/

/-- RET: with sp in [1, 16] it pops, and pc ends as the popped entry plus 2 (the spec's
decision D5); with sp = 0 it raises StackUnderflow. -/
def Obligations.ReturnPopsOrUnderflows : Prop :=
  HasWord .ret 0x00EE ∧
  (∀ (s : State) (j : Fin 16), s.sp.toNat = j.val + 1 →
    Completes .ret s fun t => t.pc = s.stack[j] + 2 ∧ t.sp.toNat = j.val ∧ Unchanged [.pc, .sp] s t) ∧
  (∀ s : State, s.sp = 0 → Raises .ret s .stackUnderflow 0)

/-- JP nnn: pc becomes nnn, and nothing else changes; an odd target, or one below 0x200, raises PcOutOfRange at the next
fetch. -/
def Obligations.JumpSetsPc : Prop :=
  ∀ (nnn : Addr12) (s : State),
    HasWord (.jp nnn) (0x1000 + nnn.toNat) ∧
    Completes (.jp nnn) s fun t =>
      t.pc.toNat = nnn.toNat ∧ Unchanged [.pc] s t ∧
      (s.fault = none → (nnn.toNat % 2 = 1 ∨ nnn.toNat < 0x200) → NextFetchRaises t)

/-- CALL nnn: with sp below 16 it stores its own address at stack[sp], increments sp and jumps, and an odd target, or one
below 0x200, raises PcOutOfRange at the next fetch; with sp = 16 it raises StackOverflow. -/
def Obligations.CallPushesOrOverflows : Prop :=
  ∀ (nnn : Addr12) (s : State),
    HasWord (.call nnn) (0x2000 + nnn.toNat) ∧
    (s.sp.toNat < 16 →
      Completes (.call nnn) s fun t =>
        t.pc.toNat = nnn.toNat ∧ t.sp.toNat = s.sp.toNat + 1 ∧
        (∀ j : Fin 16, t.stack[j] = if j.val = s.sp.toNat then s.pc else s.stack[j]) ∧
        Unchanged [.pc, .sp, .stack] s t ∧
        (s.fault = none → (nnn.toNat % 2 = 1 ∨ nnn.toNat < 0x200) → NextFetchRaises t)) ∧
    (s.sp = 16 → Raises (.call nnn) s .stackOverflow 16)

/-- A call followed at once by a return leaves pc right after the call and sp as it was (vector S8). -/
def Obligations.CallThenReturnResumes : Prop :=
  ∀ (nnn : Addr12) (s : State), s.sp.toNat < 16 →
    Completes (.call nnn) s fun t =>
      Completes .ret t fun u => u.pc = s.pc + 2 ∧ Unchanged [.pc, .stack] s u

/-- SE Vx, kk and SNE Vx, kk: pc moves by 4 when the condition holds and by 2 otherwise; nothing else changes. -/
def Obligations.ImmediateSkips : Prop :=
  ∀ (x : Nibble) (kk : Byte) (s : State),
    HasWord (.seImm x kk) (0x3000 + 0x100 * x.toNat + kk.toNat) ∧
    HasWord (.sneImm x kk) (0x4000 + 0x100 * x.toNat + kk.toNat) ∧
    (Completes (.seImm x kk) s fun t =>
      t.pc = (if (s.readV x).toNat = kk.toNat then s.pc + 4 else s.pc + 2) ∧ Unchanged [.pc] s t) ∧
    (Completes (.sneImm x kk) s fun t =>
      t.pc = (if (s.readV x).toNat ≠ kk.toNat then s.pc + 4 else s.pc + 2) ∧ Unchanged [.pc] s t)

/-- SE Vx, Vy and SNE Vx, Vy: as the immediate skips; any trailing nibble z executes in doc mode, and a nonzero one is
Unknown in canonical mode. -/
def Obligations.RegisterSkips : Prop :=
  ∀ (x y z : Nibble) (s : State),
    HasWord (.seReg x y z) (0x5000 + 0x100 * x.toNat + 0x10 * y.toNat + z.toNat) ∧
    HasWord (.sneReg x y z) (0x9000 + 0x100 * x.toNat + 0x10 * y.toNat + z.toNat) ∧
    (z ≠ 0 →
      decode true (encode (.seReg x y z)) = .error (.unknownOpcode (encode (.seReg x y z))) ∧
      decode true (encode (.sneReg x y z)) = .error (.unknownOpcode (encode (.sneReg x y z)))) ∧
    (Completes (.seReg x y z) s fun t =>
      t.pc = (if (s.readV x).toNat = (s.readV y).toNat then s.pc + 4 else s.pc + 2) ∧ Unchanged [.pc] s t) ∧
    (Completes (.sneReg x y z) s fun t =>
      t.pc = (if (s.readV x).toNat ≠ (s.readV y).toNat then s.pc + 4 else s.pc + 2) ∧ Unchanged [.pc] s t)

/-- JP V0, nnn: pc becomes the sum of nnn and V0, not reduced modulo 4096 (the spec's decision D27); a sum that is odd,
below 0x200 or above 0xFFE raises PcOutOfRange at the next fetch. -/
def Obligations.JumpWithOffset : Prop :=
  ∀ (nnn : Addr12) (s : State),
    HasWord (.jpV0 nnn) (0xB000 + nnn.toNat) ∧
    Completes (.jpV0 nnn) s fun t =>
      t.pc.toNat = nnn.toNat + (s.readV 0).toNat ∧ Unchanged [.pc] s t ∧
      (s.fault = none →
        ((nnn.toNat + (s.readV 0).toNat) % 2 = 1 ∨ nnn.toNat + (s.readV 0).toNat < 0x200 ∨
          0xFFE < nnn.toNat + (s.readV 0).toNat) → NextFetchRaises t)

/-! ### Register loads and the ALU (42_alu.md) -/

/-- LD Vx, kk and LD Vx, Vy write V[x] alone. -/
def Obligations.RegisterLoads : Prop :=
  ∀ (x y : Nibble) (kk : Byte) (s : State),
    HasWord (.ldImm x kk) (0x6000 + 0x100 * x.toNat + kk.toNat) ∧
    HasWord (.ldReg x y) (0x8000 + 0x100 * x.toNat + 0x10 * y.toNat) ∧
    (Completes (.ldImm x kk) s fun t =>
      (∀ r, t.readV r = if r = x then kk else s.readV r) ∧ t.pc = s.pc + 2 ∧ Unchanged [.v, .pc] s t) ∧
    (Completes (.ldReg x y) s fun t =>
      (∀ r, t.readV r = if r = x then s.readV y else s.readV r) ∧ t.pc = s.pc + 2 ∧ Unchanged [.v, .pc] s t)

/-- ADD Vx, kk: the sum modulo 256 in V[x]; no other register, so no flag, is written. -/
def Obligations.AddImmediateWraps : Prop :=
  ∀ (x : Nibble) (kk : Byte) (s : State),
    HasWord (.addImm x kk) (0x7000 + 0x100 * x.toNat + kk.toNat) ∧
    Completes (.addImm x kk) s fun t =>
      (∀ r, (t.readV r).toNat = if r = x then ((s.readV x).toNat + kk.toNat) % 256 else (s.readV r).toNat) ∧
      t.pc = s.pc + 2 ∧ Unchanged [.v, .pc] s t

/-- OR, AND and XOR work bit by bit and write V[x] alone. -/
def Obligations.LogicBitwise : Prop :=
  ∀ (x y : Nibble) (s : State),
    HasWord (.orReg x y) (0x8001 + 0x100 * x.toNat + 0x10 * y.toNat) ∧
    HasWord (.andReg x y) (0x8002 + 0x100 * x.toNat + 0x10 * y.toNat) ∧
    HasWord (.xorReg x y) (0x8003 + 0x100 * x.toNat + 0x10 * y.toNat) ∧
    (Completes (.orReg x y) s fun t =>
      (∀ k, k < 8 → (t.readV x).getLsbD k = ((s.readV x).getLsbD k || (s.readV y).getLsbD k)) ∧
      (∀ r, r ≠ x → t.readV r = s.readV r) ∧ t.pc = s.pc + 2 ∧ Unchanged [.v, .pc] s t) ∧
    (Completes (.andReg x y) s fun t =>
      (∀ k, k < 8 → (t.readV x).getLsbD k = ((s.readV x).getLsbD k && (s.readV y).getLsbD k)) ∧
      (∀ r, r ≠ x → t.readV r = s.readV r) ∧ t.pc = s.pc + 2 ∧ Unchanged [.v, .pc] s t) ∧
    (Completes (.xorReg x y) s fun t =>
      (∀ k, k < 8 → (t.readV x).getLsbD k = ((s.readV x).getLsbD k ^^ (s.readV y).getLsbD k)) ∧
      (∀ r, r ≠ x → t.readV r = s.readV r) ∧ t.pc = s.pc + 2 ∧ Unchanged [.v, .pc] s t)

/-- ADD Vx, Vy: the sum modulo 256 in V[x] and then the carry in VF, which VF keeps when x = F; both operands are the
values before the instruction. -/
def Obligations.AddSetsCarry : Prop :=
  ∀ (x y : Nibble) (s : State),
    HasWord (.addReg x y) (0x8004 + 0x100 * x.toNat + 0x10 * y.toNat) ∧
    Completes (.addReg x y) s fun t =>
      (t.readV flagReg).toNat = (if 255 < (s.readV x).toNat + (s.readV y).toNat then 1 else 0) ∧
      (x ≠ flagReg → (t.readV x).toNat = ((s.readV x).toNat + (s.readV y).toNat) % 256) ∧
      (∀ r, r ≠ x → r ≠ flagReg → t.readV r = s.readV r) ∧ t.pc = s.pc + 2 ∧ Unchanged [.v, .pc] s t

/-- SUB Vx, Vy: the difference modulo 256 in V[x] and then no-borrow in VF, which VF keeps when x = F. -/
def Obligations.SubtractSetsNoBorrow : Prop :=
  ∀ (x y : Nibble) (s : State),
    HasWord (.subReg x y) (0x8005 + 0x100 * x.toNat + 0x10 * y.toNat) ∧
    Completes (.subReg x y) s fun t =>
      (t.readV flagReg).toNat = (if (s.readV y).toNat ≤ (s.readV x).toNat then 1 else 0) ∧
      (x ≠ flagReg → (t.readV x).toNat = (256 + (s.readV x).toNat - (s.readV y).toNat) % 256) ∧
      (∀ r, r ≠ x → r ≠ flagReg → t.readV r = s.readV r) ∧ t.pc = s.pc + 2 ∧ Unchanged [.v, .pc] s t

/-- SUBN Vx, Vy: V[y] less V[x] modulo 256 in V[x] and then no-borrow in VF; the flag of the reversed operands is the
spec's inference from the subtraction's (R95, marked derived). -/
def Obligations.SubtractReversedSetsNoBorrow : Prop :=
  ∀ (x y : Nibble) (s : State),
    HasWord (.subnReg x y) (0x8007 + 0x100 * x.toNat + 0x10 * y.toNat) ∧
    Completes (.subnReg x y) s fun t =>
      (t.readV flagReg).toNat = (if (s.readV x).toNat ≤ (s.readV y).toNat then 1 else 0) ∧
      (x ≠ flagReg → (t.readV x).toNat = (256 + (s.readV y).toNat - (s.readV x).toNat) % 256) ∧
      (∀ r, r ≠ x → r ≠ flagReg → t.readV r = s.readV r) ∧ t.pc = s.pc + 2 ∧ Unchanged [.v, .pc] s t

/-- SHR and SHL: V[x] or V[y] by SHIFT_SOURCE (the spec's decision D7), shifted by one into V[x], and then the bit
shifted out in VF. -/
def Obligations.ShiftsPutOutBit : Prop :=
  ∀ (x y : Nibble) (s : State) (a : Nat),
    a = (match s.params.shiftSource with
      | .x => (s.readV x).toNat
      | .y => (s.readV y).toNat) →
    HasWord (.shr x y) (0x8006 + 0x100 * x.toNat + 0x10 * y.toNat) ∧
    HasWord (.shl x y) (0x800E + 0x100 * x.toNat + 0x10 * y.toNat) ∧
    (Completes (.shr x y) s fun t =>
      (t.readV flagReg).toNat = a % 2 ∧ (x ≠ flagReg → (t.readV x).toNat = a / 2) ∧
      (∀ r, r ≠ x → r ≠ flagReg → t.readV r = s.readV r) ∧ t.pc = s.pc + 2 ∧ Unchanged [.v, .pc] s t) ∧
    (Completes (.shl x y) s fun t =>
      (t.readV flagReg).toNat = a / 128 ∧ (x ≠ flagReg → (t.readV x).toNat = 2 * a % 256) ∧
      (∀ r, r ≠ x → r ≠ flagReg → t.readV r = s.readV r) ∧ t.pc = s.pc + 2 ∧ Unchanged [.v, .pc] s t)

/-- RND Vx, kk: V[x] is some byte AND kk, so every bit that is 0 in kk is 0 there; no other register is written. Which
byte is the model's free draw (assumption log 3). -/
def Obligations.RandomIsMasked : Prop :=
  ∀ (x : Nibble) (kk : Byte) (s : State),
    HasWord (.rnd x kk) (0xC000 + 0x100 * x.toNat + kk.toNat) ∧
    Completes (.rnd x kk) s fun t =>
      (∃ draw : Byte, t.readV x = draw &&& kk) ∧ (∀ k, k < 8 → kk.getLsbD k = false → (t.readV x).getLsbD k = false) ∧
      (∀ r, r ≠ x → t.readV r = s.readV r) ∧ t.pc = s.pc + 2 ∧ Unchanged [.v, .pc, .draws] s t

/-! ### The address register and memory transfers (43_index_memory.md) -/

/-- LD I, nnn: I becomes nnn. -/
def Obligations.LoadAddressRegister : Prop :=
  ∀ (nnn : Addr12) (s : State),
    HasWord (.ldI nnn) (0xA000 + nnn.toNat) ∧
    Completes (.ldI nnn) s fun t => t.i.toNat = nnn.toNat ∧ t.pc = s.pc + 2 ∧ Unchanged [.i, .pc] s t

/-- ADD I, Vx: a 16-bit sum; no general register, so no flag, is written (the spec's decision D36). -/
def Obligations.AddToAddressRegister : Prop :=
  ∀ (x : Nibble) (s : State),
    HasWord (.addI x) (0xF01E + 0x100 * x.toNat) ∧
    Completes (.addI x) s fun t =>
      t.i.toNat = (s.i.toNat + (s.readV x).toNat) % 65536 ∧ t.pc = s.pc + 2 ∧ Unchanged [.i, .pc] s t

/-- LD F, Vx: I becomes 5 V[x] for V[x] at most 0xF, and UndefinedOperand is raised above (the spec's decision D13). -/
def Obligations.FontAddressOrUndefined : Prop :=
  ∀ (x : Nibble) (s : State),
    HasWord (.ldF x) (0xF029 + 0x100 * x.toNat) ∧
    ((s.readV x).toNat ≤ 0xF →
      Completes (.ldF x) s fun t =>
        t.i.toNat = 5 * (s.readV x).toNat ∧ t.pc = s.pc + 2 ∧ Unchanged [.i, .pc] s t) ∧
    (0xF < (s.readV x).toNat → Raises (.ldF x) s .undefinedOperand (BitVec.ofNat 16 (s.readV x).toNat))

/-- LD B, Vx: the three decimal digits of V[x] at I, I+1 and I+2, each modulo 4096; every other byte and I keep. -/
def Obligations.BcdStoresDigits : Prop :=
  ∀ (x : Nibble) (s : State), Memory.wf s.mem = true →
    HasWord (.ldB x) (0xF033 + 0x100 * x.toNat) ∧
    Completes (.ldB x) s fun t =>
      (t.memRead (s.i.toNat + 0)).toNat = (s.readV x).toNat / 100 ∧
      (t.memRead (s.i.toNat + 1)).toNat = (s.readV x).toNat / 10 % 10 ∧
      (t.memRead (s.i.toNat + 2)).toNat = (s.readV x).toNat % 10 ∧
      (∀ a, (∀ k, k < 3 → a % 4096 ≠ (s.i.toNat + k) % 4096) → t.memRead a = s.memRead a) ∧
      t.pc = s.pc + 2 ∧ Unchanged [.mem, .pc] s t

/-- LD [I], Vx: V[0] to V[x] at I onward, each address modulo 4096; every other byte, and I (the spec's decision D14),
keep. -/
def Obligations.StoreRegistersWrites : Prop :=
  ∀ (x : Nibble) (s : State), Memory.wf s.mem = true →
    HasWord (.storeRegs x) (0xF055 + 0x100 * x.toNat) ∧
    Completes (.storeRegs x) s fun t =>
      (∀ k : Nibble, k.toNat ≤ x.toNat → t.memRead (s.i.toNat + k.toNat) = s.readV k) ∧
      (∀ a, (∀ k, k ≤ x.toNat → a % 4096 ≠ (s.i.toNat + k) % 4096) → t.memRead a = s.memRead a) ∧
      t.pc = s.pc + 2 ∧ Unchanged [.mem, .pc] s t

/-- LD Vx, [I]: the bytes at I onward into V[0] to V[x]; the other registers, and I (the spec's decision D14), keep. -/
def Obligations.LoadRegistersReads : Prop :=
  ∀ (x : Nibble) (s : State),
    HasWord (.loadRegs x) (0xF065 + 0x100 * x.toNat) ∧
    Completes (.loadRegs x) s fun t =>
      (∀ r : Nibble, t.readV r = if r.toNat ≤ x.toNat then s.memRead (s.i.toNat + r.toNat) else s.readV r) ∧
      t.pc = s.pc + 2 ∧ Unchanged [.v, .pc] s t

/-- Storing V[0] to V[x] and loading them back from the same I leaves every register as it was (vector S1). -/
def Obligations.StoreThenLoadRestores : Prop :=
  ∀ (x : Nibble) (s : State), Memory.wf s.mem = true →
    Completes (.storeRegs x) s fun t =>
      Completes (.loadRegs x) t fun u => Unchanged [.mem, .pc] s u

/-- A store of registers over the next instruction's bytes is what the next fetch reads, big-endian
(20_memory.md R39, R46; 70_reset_and_hazards.md R142). -/
def Obligations.StoreSeenByNextFetch : Prop :=
  ∀ (x k : Nibble) (s : State), Memory.wf s.mem = true → k.toNat + 1 ≤ x.toNat →
    s.i.toNat + k.toNat = s.pc.toNat + 2 →
    Completes (.storeRegs x) s fun t => t.fetchWord = wordOfBytes (s.readV k) (s.readV (k + 1))

/-! ### Display (44_display.md) -/

/-- CLS: every cell off; no register is written. -/
def Obligations.ClearTurnsAllOff : Prop :=
  ∀ s : State,
    HasWord .cls 0x00E0 ∧
    Completes .cls s fun t => (∀ c r, t.disp.cell c r = false) ∧ t.pc = s.pc + 2 ∧ Unchanged [.disp, .pc] s t

/-- DRW Vx, Vy, n: exactly the cells under a set sprite bit are toggled, with rows and columns wrapping; VF is 1 when
one of them was on and 0 otherwise, also when n = 0; nothing else changes (the spec's decisions D6, D8, D9). -/
def Obligations.DrawTogglesCoveredCells : Prop :=
  ∀ (x y n : Nibble) (s : State),
    HasWord (.drw x y n) (0xD000 + 0x100 * x.toNat + 0x10 * y.toNat + n.toNat) ∧
    Completes (.drw x y n) s fun t =>
      (∀ c r, SpriteCovers s x y n c r → t.disp.cell c r = !s.disp.cell c r) ∧
      (∀ c r, ¬ SpriteCovers s x y n c r → t.disp.cell c r = s.disp.cell c r) ∧
      ((∃ c r, SpriteCovers s x y n c r ∧ s.disp.cell c r = true) → t.readV flagReg = 1) ∧
      ((¬ ∃ c r, SpriteCovers s x y n c r ∧ s.disp.cell c r = true) → t.readV flagReg = 0) ∧
      (∀ r, r ≠ flagReg → t.readV r = s.readV r) ∧ t.pc = s.pc + 2 ∧ Unchanged [.disp, .v, .pc] s t

/-- Drawing the same sprite twice at the same coordinates restores the display; the second draw reports a collision
exactly when one of its pixels was on (vector S2). The coordinates are read from registers other than VF, which the
first draw overwrites. -/
def Obligations.DrawTwiceRestores : Prop :=
  ∀ (x y n : Nibble) (s : State), x ≠ flagReg → y ≠ flagReg →
    Completes (.drw x y n) s fun t =>
      Completes (.drw x y n) t fun u =>
        (∀ c r, u.disp.cell c r = s.disp.cell c r) ∧
        (u.readV flagReg = 1 ↔ ∃ c r, SpriteCovers s x y n c r ∧ t.disp.cell c r = true)

/-! ### Keypad and timers (45_keypad_timers.md) -/

/-- SKP and SKNP: with V[x] at most 0xF they skip on the state of that key; above, they raise UndefinedOperand. The
ignored nibble y plays no part but in the recorded word (the spec's decisions D3, D12). -/
def Obligations.KeySkips : Prop :=
  ∀ (x y : Nibble) (s : State),
    HasWord (.skp x y) (0xE00E + 0x100 * x.toNat + 0x10 * y.toNat) ∧
    HasWord (.sknp x y) (0xE001 + 0x100 * x.toNat + 0x10 * y.toNat) ∧
    (∀ k : Nibble, (s.readV x).toNat = k.toNat →
      (Completes (.skp x y) s fun t =>
        t.pc = (if s.readKey k = true then s.pc + 4 else s.pc + 2) ∧ Unchanged [.pc] s t) ∧
      (Completes (.sknp x y) s fun t =>
        t.pc = (if s.readKey k = false then s.pc + 4 else s.pc + 2) ∧ Unchanged [.pc] s t)) ∧
    (0xF < (s.readV x).toNat →
      Raises (.skp x y) s .undefinedOperand (BitVec.ofNat 16 (s.readV x).toNat) ∧
      Raises (.sknp x y) s .undefinedOperand (BitVec.ofNat 16 (s.readV x).toNat))

/-- LD Vx, DT, LD DT, Vx and LD ST, Vx move a byte between V[x] and a timer. -/
def Obligations.TimerMoves : Prop :=
  ∀ (x : Nibble) (s : State),
    HasWord (.ldVxDT x) (0xF007 + 0x100 * x.toNat) ∧ HasWord (.ldDTVx x) (0xF015 + 0x100 * x.toNat) ∧
    HasWord (.ldSTVx x) (0xF018 + 0x100 * x.toNat) ∧
    (Completes (.ldVxDT x) s fun t =>
      (∀ r, t.readV r = if r = x then s.dt else s.readV r) ∧ t.pc = s.pc + 2 ∧ Unchanged [.v, .pc] s t) ∧
    (Completes (.ldDTVx x) s fun t => t.dt = s.readV x ∧ t.pc = s.pc + 2 ∧ Unchanged [.dt, .pc] s t) ∧
    (Completes (.ldSTVx x) s fun t => t.st = s.readV x ∧ t.pc = s.pc + 2 ∧ Unchanged [.st, .pc] s t)

/-- A whole cycle of LD DT, Vx and of LD Vx, DT: with TIMER_COUPLED the decrement follows the handler, so DT ends one
below the value written, at least 0, and V[x] receives DT as it was before the decrement (R109, R111; 40_cycle.md R70). -/
def Obligations.TimerMovesInCoupledCycle : Prop :=
  ∀ (x : Nibble) (s : State), s.fault = none → pcInRange s.pc = true →
    (decode s.params.canonicalDecode s.fetchWord = .ok (.ldDTVx x) →
      ∃ t, step s = .next t ∧
        t.dt.toNat = if s.params.timerCoupled then (s.readV x).toNat - 1 else (s.readV x).toNat) ∧
    (decode s.params.canonicalDecode s.fetchWord = .ok (.ldVxDT x) →
      ∃ t, step s = .next t ∧ t.readV x = s.dt ∧
        t.dt.toNat = if s.params.timerCoupled then s.dt.toNat - 1 else s.dt.toNat)

/-- LD Vx, K: with no key pressed the state stays as it is (Hold); with some key pressed V[x] receives the index of a
pressed key. Which pressed key is the model's free draw (assumption log 3). -/
def Obligations.WaitForKeyTakesPressedKey : Prop :=
  ∀ (x : Nibble) (s : State),
    HasWord (.ldVxK x) (0xF00A + 0x100 * x.toNat) ∧
    ((∀ k, s.readKey k = false) → exec (.ldVxK x) s = .next s) ∧
    (∀ k₀, s.readKey k₀ = true →
      Completes (.ldVxK x) s fun t =>
        (∃ k, s.readKey k = true ∧ (t.readV x).toNat = k.toNat) ∧ (∀ r, r ≠ x → t.readV r = s.readV r) ∧
        t.pc = s.pc + 2 ∧ Unchanged [.v, .pc, .draws] s t)

/-- A held cycle of LD Vx, K leaves pc, and completes the rest of the cycle: coupled timers decrement and the export
refreshes (40_cycle.md R75). -/
def Obligations.HeldCycleRunsTimers : Prop :=
  ∀ (x : Nibble) (s : State), s.fault = none → pcInRange s.pc = true →
    decode s.params.canonicalDecode s.fetchWord = .ok (.ldVxK x) → (∀ k, s.readKey k = false) →
    ∃ t, step s = .next t ∧
      t.dt.toNat = (if s.params.timerCoupled then s.dt.toNat - 1 else s.dt.toNat) ∧
      t.st.toNat = (if s.params.timerCoupled then s.st.toNat - 1 else s.st.toNat) ∧
      t.dispExport = s.disp ∧ Unchanged [.dt, .st, .dispExport] s t

/-! ### The host's inputs (60_exceptions.md, 70_reset_and_hazards.md) -/

/-- The tick decrements both timers once, saturating at 0, when TIMER_COUPLED is false, in every fault state, and does
nothing when it is true (R126, R127). -/
def Obligations.TickDecrementsWhenDecoupled : Prop :=
  ∀ s : State,
    (HostInput.tick.apply s).dt.toNat = (if s.params.timerCoupled then s.dt.toNat else s.dt.toNat - 1) ∧
    (HostInput.tick.apply s).st.toNat = (if s.params.timerCoupled then s.st.toNat else s.st.toNat - 1) ∧
    Unchanged [.dt, .st] s (HostInput.tick.apply s)

/-- set_key(k, b) writes key[k] and nothing else (R129). -/
def Obligations.SetKeyWritesOneKey : Prop :=
  ∀ (k : Nibble) (b : Bool) (s : State),
    (∀ q, ((HostInput.setKey k b).apply s).readKey q = if q = k then b else s.readKey q) ∧
    Unchanged [.key] s ((HostInput.setKey k b).apply s)

/-- load(image): an image of more than 3584 bytes changes nothing and answers ProgramTooLarge, code 6; any other is
copied to 0x200 after a reload, which keeps the font region and the keys, zeroes the rest of memory and puts every
other piece of state at its reset value (R132; 70_reset_and_hazards.md R139). -/
def Obligations.LoadReloadsAndCopies : Prop :=
  ∀ (image : List Byte) (s : State), Memory.wf s.mem = true →
    (3584 < image.length → s.load image = (.programTooLarge, s) ∧ LoadResult.programTooLarge.code = 6) ∧
    (image.length ≤ 3584 →
      (s.load image).1 = .ok ∧
      (∀ (k : Nat) (h : k < image.length), (s.load image).2.memRead (0x200 + k) = image[k]) ∧
      (∀ a, a < 0x050 → (s.load image).2.memRead a = s.memRead a) ∧
      (∀ a, 0x050 ≤ a → a ≤ 0xFFF → (a < 0x200 ∨ 0x200 + image.length ≤ a) → (s.load image).2.memRead a = 0x00) ∧
      (∀ r, (s.load image).2.readV r = 0x00) ∧ (s.load image).2.i = 0x0000 ∧ (s.load image).2.pc = 0x0200 ∧
      (s.load image).2.sp = 0 ∧ (∀ j : Fin 16, (s.load image).2.stack[j] = 0x0000) ∧
      (s.load image).2.dt = 0 ∧ (s.load image).2.st = 0 ∧
      (∀ c r, (s.load image).2.disp.cell c r = false) ∧ (∀ c r, (s.load image).2.dispExport.cell c r = false) ∧
      (s.load image).2.fault = none ∧ (s.load image).2.key = s.key ∧ (s.load image).2.params = s.params)

/-- The reset input puts every piece of state the spec names at its reset value, with the machine's own FONT; the
parameters stay (R138). -/
def Obligations.ResetInputRestores : Prop :=
  ∀ s : State,
    (∀ (d : Fin 16) (k : Fin 5), (HostInput.reset.apply s).memRead (5 * d.val + k.val) = (s.params.font[d])[k]) ∧
    (∀ a, 0x050 ≤ a → a ≤ 0xFFF → (HostInput.reset.apply s).memRead a = 0x00) ∧
    (∀ r, (HostInput.reset.apply s).readV r = 0x00) ∧ (HostInput.reset.apply s).i = 0x0000 ∧
    (HostInput.reset.apply s).pc = 0x0200 ∧ (HostInput.reset.apply s).sp = 0 ∧
    (∀ j : Fin 16, (HostInput.reset.apply s).stack[j] = 0x0000) ∧
    (HostInput.reset.apply s).dt = 0 ∧ (HostInput.reset.apply s).st = 0 ∧
    (∀ c r, (HostInput.reset.apply s).disp.cell c r = false) ∧ (∀ k, (HostInput.reset.apply s).readKey k = false) ∧
    (HostInput.reset.apply s).fault = none ∧ (∀ c r, (HostInput.reset.apply s).dispExport.cell c r = false) ∧
    (HostInput.reset.apply s).params = s.params

/-- resume_skip adds 2 to pc and clears the fault when its kind is UnknownOpcode, writes nothing else, and has no effect
otherwise (R120). -/
def Obligations.ResumeSkipClearsUnknownOpcode : Prop :=
  ∀ s : State,
    (∀ r, s.fault = some r → r.kind = .unknownOpcode →
      HostInput.resumeSkip.apply s = { s with pc := s.pc + 2, fault := none }) ∧
    (∀ r, s.fault = some r → r.kind ≠ .unknownOpcode → HostInput.resumeSkip.apply s = s) ∧
    (s.fault = none → HostInput.resumeSkip.apply s = s)

/-- A held fault stays until reset, a load that succeeds, or, for UnknownOpcode only, resume_skip (R119). -/
def Obligations.FaultIsSticky : Prop :=
  ∀ (inp : HostInput) (s : State) (r : FaultRecord), s.fault = some r →
    (inp.apply s).fault = some r ∨
      inp = .reset ∨ (∃ image, inp = .load image ∧ image.length ≤ 3584) ∨
      (inp = .resumeSkip ∧ r.kind = .unknownOpcode)

/-! ### The end of a run (70_reset_and_hazards.md R145) -/

/-- A cycle from a parked state answers a parked state and changes at most DT, ST and the export: pc, V, I, sp, stack,
memory and the display keep. -/
def Obligations.ParkedStaysParked : Prop :=
  ∀ s : State, Parked s → ∃ t, step s = .next t ∧ Parked t ∧ Unchanged [.dt, .st, .dispExport] s t
end

