-- ==== Sys2Proof/Laws/Fields.lean ====
section
/-! SUPPORT. The fields of a packed word, one lemma per field and format, and the words rebuilt from their fields
(30_encoding.md R50, R51). -/

namespace Sys2Proof

section
variable (o x y n : Nibble) (kk : Byte) (nnn : Addr12)

@[simp] theorem fieldOp_packNibbles : fieldOp (packNibbles o x y n) = o := by
  unfold fieldOp packNibbles
  rw [BitVec.extractLsb'_append_eq_of_le (by decide), BitVec.extractLsb'_append_eq_of_le (by decide),
    BitVec.extractLsb'_append_eq_of_le (by decide)]
  simp

@[simp] theorem fieldX_packNibbles : fieldX (packNibbles o x y n) = x := by
  unfold fieldX packNibbles
  rw [BitVec.extractLsb'_append_eq_of_le (by decide), BitVec.extractLsb'_append_eq_of_le (by decide),
    BitVec.extractLsb'_append_eq_of_add_le (by decide)]
  simp

@[simp] theorem fieldY_packNibbles : fieldY (packNibbles o x y n) = y := by
  unfold fieldY packNibbles
  rw [BitVec.extractLsb'_append_eq_of_le (by decide), BitVec.extractLsb'_append_eq_of_add_le (by decide)]
  simp

@[simp] theorem fieldN_packNibbles : fieldN (packNibbles o x y n) = n := by
  unfold fieldN packNibbles
  rw [BitVec.extractLsb'_append_eq_of_add_le (by decide)]
  simp

@[simp] theorem fieldOp_packByte : fieldOp (packByte o x kk) = o := by
  unfold fieldOp packByte
  rw [BitVec.extractLsb'_append_eq_of_le (by decide), BitVec.extractLsb'_append_eq_of_le (by decide)]
  simp

@[simp] theorem fieldX_packByte : fieldX (packByte o x kk) = x := by
  unfold fieldX packByte
  rw [BitVec.extractLsb'_append_eq_of_le (by decide), BitVec.extractLsb'_append_eq_of_add_le (by decide)]
  simp

@[simp] theorem fieldKK_packByte : fieldKK (packByte o x kk) = kk := by
  unfold fieldKK packByte
  rw [BitVec.extractLsb'_append_eq_of_add_le (by decide)]
  simp

@[simp] theorem fieldOp_packAddr : fieldOp (packAddr o nnn) = o := by
  unfold fieldOp packAddr
  rw [BitVec.extractLsb'_append_eq_of_le (by decide)]
  simp

@[simp] theorem fieldNNN_packAddr : fieldNNN (packAddr o nnn) = nnn := by
  unfold fieldNNN packAddr
  rw [BitVec.extractLsb'_append_eq_of_add_le (by decide)]
  simp

end

/-- The two bytes of a word, put together again (20_memory.md R38). -/
theorem wordOfBytes_high_low (w : Word) : wordOfBytes (highByte w) (lowByte w) = w := by
  apply BitVec.eq_of_toNat_eq
  have := w.isLt
  simp only [wordOfBytes, highByte, lowByte, BitVec.toNat_append, BitVec.extractLsb'_toNat]
  rw [← Nat.shiftLeft_add_eq_or_of_lt (by omega)]
  simp [Nat.shiftRight_eq_div_pow, Nat.shiftLeft_eq]
  omega

theorem packNibbles_fields (w : Word) : packNibbles (fieldOp w) (fieldX w) (fieldY w) (fieldN w) = w := by
  apply BitVec.eq_of_toNat_eq
  have := w.isLt
  simp only [packNibbles, fieldOp, fieldX, fieldY, fieldN, BitVec.toNat_append, BitVec.extractLsb'_toNat]
  rw [← Nat.shiftLeft_add_eq_or_of_lt (by omega), ← Nat.shiftLeft_add_eq_or_of_lt (by omega),
    ← Nat.shiftLeft_add_eq_or_of_lt (by omega)]
  simp [Nat.shiftRight_eq_div_pow, Nat.shiftLeft_eq]
  omega

theorem packByte_fields (w : Word) : packByte (fieldOp w) (fieldX w) (fieldKK w) = w := by
  apply BitVec.eq_of_toNat_eq
  have := w.isLt
  simp only [packByte, fieldOp, fieldX, fieldKK, BitVec.toNat_append, BitVec.extractLsb'_toNat]
  rw [← Nat.shiftLeft_add_eq_or_of_lt (by omega), ← Nat.shiftLeft_add_eq_or_of_lt (by omega)]
  simp [Nat.shiftRight_eq_div_pow, Nat.shiftLeft_eq]
  omega

theorem packAddr_fields (w : Word) : packAddr (fieldOp w) (fieldNNN w) = w := by
  apply BitVec.eq_of_toNat_eq
  have := w.isLt
  simp only [packAddr, fieldOp, fieldNNN, BitVec.toNat_append, BitVec.extractLsb'_toNat]
  rw [← Nat.shiftLeft_add_eq_or_of_lt (by omega)]
  simp [Nat.shiftRight_eq_div_pow, Nat.shiftLeft_eq]
  omega

/-! ### Packed words as numbers -/

theorem packNibbles_toNat (o x y n : Nibble) :
    (packNibbles o x y n).toNat = 0x1000 * o.toNat + 0x100 * x.toNat + 0x10 * y.toNat + n.toNat := by
  have := o.isLt
  have := x.isLt
  have := y.isLt
  have := n.isLt
  simp only [packNibbles, BitVec.toNat_append]
  rw [← Nat.shiftLeft_add_eq_or_of_lt (by omega), ← Nat.shiftLeft_add_eq_or_of_lt (by omega),
    ← Nat.shiftLeft_add_eq_or_of_lt (by omega)]
  simp [Nat.shiftLeft_eq]
  omega

theorem packByte_toNat (o x : Nibble) (kk : Byte) :
    (packByte o x kk).toNat = 0x1000 * o.toNat + 0x100 * x.toNat + kk.toNat := by
  have := o.isLt
  have := x.isLt
  have := kk.isLt
  simp only [packByte, BitVec.toNat_append]
  rw [← Nat.shiftLeft_add_eq_or_of_lt (by omega), ← Nat.shiftLeft_add_eq_or_of_lt (by omega)]
  simp [Nat.shiftLeft_eq]
  omega

theorem packAddr_toNat (o : Nibble) (nnn : Addr12) : (packAddr o nnn).toNat = 0x1000 * o.toNat + nnn.toNat := by
  have := o.isLt
  have := nnn.isLt
  simp only [packAddr, BitVec.toNat_append]
  rw [← Nat.shiftLeft_add_eq_or_of_lt (by omega)]
  simp [Nat.shiftLeft_eq]
  omega

/-! ### Packed words under the masks of the opcode map (R59, R60) -/

section
variable (op x y n : Nibble) (kk : Byte) (nnn : Addr12)

theorem nibble_and_all (a : Nibble) : a &&& 0xF#4 = a := by
  revert a; decide

theorem byte_and_all (b : Byte) : b &&& 0xFF#8 = b := by
  revert b; decide

theorem packNibbles_mask_op : packNibbles op x y n &&& 0xF000#16 = packNibbles op 0 0 0 := by
  unfold packNibbles
  rw [show (0xF000#16 : BitVec 16) = (0xF#4 ++ 0#4 ++ 0#4 ++ 0#4 : BitVec 16) from by decide, BitVec.and_append,
    BitVec.and_append, BitVec.and_append]
  simp [nibble_and_all]

theorem packNibbles_mask_ends : packNibbles op x y n &&& 0xF00F#16 = packNibbles op 0 0 n := by
  unfold packNibbles
  rw [show (0xF00F#16 : BitVec 16) = (0xF#4 ++ 0#4 ++ 0#4 ++ 0xF#4 : BitVec 16) from by decide, BitVec.and_append,
    BitVec.and_append, BitVec.and_append]
  simp [nibble_and_all]

theorem packNibbles_mask_not_x : packNibbles op x y n &&& 0xF0FF#16 = packNibbles op 0 y n := by
  unfold packNibbles
  rw [show (0xF0FF#16 : BitVec 16) = (0xF#4 ++ 0#4 ++ 0xF#4 ++ 0xF#4 : BitVec 16) from by decide, BitVec.and_append,
    BitVec.and_append, BitVec.and_append]
  simp [nibble_and_all]

theorem packByte_mask_op : packByte op x kk &&& 0xF000#16 = packByte op 0 0 := by
  unfold packByte
  rw [show (0xF000#16 : BitVec 16) = (0xF#4 ++ 0#4 ++ 0#8 : BitVec 16) from by decide, BitVec.and_append,
    BitVec.and_append]
  simp [nibble_and_all]

theorem packByte_mask_not_x : packByte op x kk &&& 0xF0FF#16 = packByte op 0 kk := by
  unfold packByte
  rw [show (0xF0FF#16 : BitVec 16) = (0xF#4 ++ 0#4 ++ 0xFF#8 : BitVec 16) from by decide, BitVec.and_append,
    BitVec.and_append]
  simp [nibble_and_all, byte_and_all]

theorem packAddr_mask : packAddr op nnn &&& 0xF000#16 = packAddr op 0 := by
  unfold packAddr
  rw [show (0xF000#16 : BitVec 16) = (0xF#4 ++ 0#12 : BitVec 16) from by decide, BitVec.and_append]
  simp [nibble_and_all]

end

end Sys2Proof
end

