-- ==== Sys2Proof/Laws/State.lean ====
section
/-! SUPPORT. What each update of the state does to each field, one lemma per field, so that no later proof unfolds a
record update. -/

namespace Sys2Proof.Machine

variable (s : State)

/-! ### writeV -/

@[simp] theorem State.writeV_v (r : Nibble) (b : Byte) : (s.writeV r b).v = s.v.set r.toNat b r.isLt := rfl
@[simp] theorem State.writeV_i (r : Nibble) (b : Byte) : (s.writeV r b).i = s.i := rfl
@[simp] theorem State.writeV_pc (r : Nibble) (b : Byte) : (s.writeV r b).pc = s.pc := rfl
@[simp] theorem State.writeV_sp (r : Nibble) (b : Byte) : (s.writeV r b).sp = s.sp := rfl
@[simp] theorem State.writeV_stack (r : Nibble) (b : Byte) : (s.writeV r b).stack = s.stack := rfl
@[simp] theorem State.writeV_dt (r : Nibble) (b : Byte) : (s.writeV r b).dt = s.dt := rfl
@[simp] theorem State.writeV_st (r : Nibble) (b : Byte) : (s.writeV r b).st = s.st := rfl
@[simp] theorem State.writeV_mem (r : Nibble) (b : Byte) : (s.writeV r b).mem = s.mem := rfl
@[simp] theorem State.writeV_disp (r : Nibble) (b : Byte) : (s.writeV r b).disp = s.disp := rfl
@[simp] theorem State.writeV_key (r : Nibble) (b : Byte) : (s.writeV r b).key = s.key := rfl
@[simp] theorem State.writeV_fault (r : Nibble) (b : Byte) : (s.writeV r b).fault = s.fault := rfl
@[simp] theorem State.writeV_dispExport (r : Nibble) (b : Byte) : (s.writeV r b).dispExport = s.dispExport := rfl
@[simp] theorem State.writeV_params (r : Nibble) (b : Byte) : (s.writeV r b).params = s.params := rfl
@[simp] theorem State.writeV_draws (r : Nibble) (b : Byte) : (s.writeV r b).draws = s.draws := rfl

/-! ### writeResultFlag -/

@[simp] theorem State.writeResultFlag_i (x : Nibble) (a f : Byte) : (s.writeResultFlag x a f).i = s.i := rfl
@[simp] theorem State.writeResultFlag_pc (x : Nibble) (a f : Byte) : (s.writeResultFlag x a f).pc = s.pc := rfl
@[simp] theorem State.writeResultFlag_sp (x : Nibble) (a f : Byte) : (s.writeResultFlag x a f).sp = s.sp := rfl
@[simp] theorem State.writeResultFlag_stack (x : Nibble) (a f : Byte) : (s.writeResultFlag x a f).stack = s.stack := rfl
@[simp] theorem State.writeResultFlag_dt (x : Nibble) (a f : Byte) : (s.writeResultFlag x a f).dt = s.dt := rfl
@[simp] theorem State.writeResultFlag_st (x : Nibble) (a f : Byte) : (s.writeResultFlag x a f).st = s.st := rfl
@[simp] theorem State.writeResultFlag_mem (x : Nibble) (a f : Byte) : (s.writeResultFlag x a f).mem = s.mem := rfl
@[simp] theorem State.writeResultFlag_disp (x : Nibble) (a f : Byte) : (s.writeResultFlag x a f).disp = s.disp := rfl
@[simp] theorem State.writeResultFlag_key (x : Nibble) (a f : Byte) : (s.writeResultFlag x a f).key = s.key := rfl
@[simp] theorem State.writeResultFlag_fault (x : Nibble) (a f : Byte) : (s.writeResultFlag x a f).fault = s.fault := rfl
@[simp] theorem State.writeResultFlag_dispExport (x : Nibble) (a f : Byte) : (s.writeResultFlag x a f).dispExport = s.dispExport := rfl
@[simp] theorem State.writeResultFlag_params (x : Nibble) (a f : Byte) : (s.writeResultFlag x a f).params = s.params := rfl
@[simp] theorem State.writeResultFlag_draws (x : Nibble) (a f : Byte) : (s.writeResultFlag x a f).draws = s.draws := rfl

/-! ### memWrite -/

@[simp] theorem State.memWrite_v (a : Nat) (b : Byte) : (s.memWrite a b).v = s.v := rfl
@[simp] theorem State.memWrite_i (a : Nat) (b : Byte) : (s.memWrite a b).i = s.i := rfl
@[simp] theorem State.memWrite_pc (a : Nat) (b : Byte) : (s.memWrite a b).pc = s.pc := rfl
@[simp] theorem State.memWrite_sp (a : Nat) (b : Byte) : (s.memWrite a b).sp = s.sp := rfl
@[simp] theorem State.memWrite_stack (a : Nat) (b : Byte) : (s.memWrite a b).stack = s.stack := rfl
@[simp] theorem State.memWrite_dt (a : Nat) (b : Byte) : (s.memWrite a b).dt = s.dt := rfl
@[simp] theorem State.memWrite_st (a : Nat) (b : Byte) : (s.memWrite a b).st = s.st := rfl
@[simp] theorem State.memWrite_mem (a : Nat) (b : Byte) : (s.memWrite a b).mem = Memory.write s.mem (a % 4096) b := rfl
@[simp] theorem State.memWrite_disp (a : Nat) (b : Byte) : (s.memWrite a b).disp = s.disp := rfl
@[simp] theorem State.memWrite_key (a : Nat) (b : Byte) : (s.memWrite a b).key = s.key := rfl
@[simp] theorem State.memWrite_fault (a : Nat) (b : Byte) : (s.memWrite a b).fault = s.fault := rfl
@[simp] theorem State.memWrite_dispExport (a : Nat) (b : Byte) : (s.memWrite a b).dispExport = s.dispExport := rfl
@[simp] theorem State.memWrite_params (a : Nat) (b : Byte) : (s.memWrite a b).params = s.params := rfl
@[simp] theorem State.memWrite_draws (a : Nat) (b : Byte) : (s.memWrite a b).draws = s.draws := rfl

/-! ### raise -/

@[simp] theorem State.raise_v (k : FaultKind) (w info : Word) : (s.raise k w info).v = s.v := rfl
@[simp] theorem State.raise_i (k : FaultKind) (w info : Word) : (s.raise k w info).i = s.i := rfl
@[simp] theorem State.raise_pc (k : FaultKind) (w info : Word) : (s.raise k w info).pc = s.pc := rfl
@[simp] theorem State.raise_sp (k : FaultKind) (w info : Word) : (s.raise k w info).sp = s.sp := rfl
@[simp] theorem State.raise_stack (k : FaultKind) (w info : Word) : (s.raise k w info).stack = s.stack := rfl
@[simp] theorem State.raise_dt (k : FaultKind) (w info : Word) : (s.raise k w info).dt = s.dt := rfl
@[simp] theorem State.raise_st (k : FaultKind) (w info : Word) : (s.raise k w info).st = s.st := rfl
@[simp] theorem State.raise_mem (k : FaultKind) (w info : Word) : (s.raise k w info).mem = s.mem := rfl
@[simp] theorem State.raise_disp (k : FaultKind) (w info : Word) : (s.raise k w info).disp = s.disp := rfl
@[simp] theorem State.raise_key (k : FaultKind) (w info : Word) : (s.raise k w info).key = s.key := rfl
@[simp] theorem State.raise_fault (k : FaultKind) (w info : Word) : (s.raise k w info).fault = some { kind := k, pc := s.pc, word := w, info := info } := rfl
@[simp] theorem State.raise_dispExport (k : FaultKind) (w info : Word) : (s.raise k w info).dispExport = s.dispExport := rfl
@[simp] theorem State.raise_params (k : FaultKind) (w info : Word) : (s.raise k w info).params = s.params := rfl
@[simp] theorem State.raise_draws (k : FaultKind) (w info : Word) : (s.raise k w info).draws = s.draws := rfl

/-! ### push -/

@[simp] theorem State.push_v (w : Word) (h : s.sp.toNat < 16) : (s.push w h).v = s.v := rfl
@[simp] theorem State.push_i (w : Word) (h : s.sp.toNat < 16) : (s.push w h).i = s.i := rfl
@[simp] theorem State.push_pc (w : Word) (h : s.sp.toNat < 16) : (s.push w h).pc = s.pc := rfl
@[simp] theorem State.push_sp (w : Word) (h : s.sp.toNat < 16) : (s.push w h).sp = s.sp + 1 := rfl
@[simp] theorem State.push_stack (w : Word) (h : s.sp.toNat < 16) : (s.push w h).stack = s.stack.set s.sp.toNat w h := rfl
@[simp] theorem State.push_dt (w : Word) (h : s.sp.toNat < 16) : (s.push w h).dt = s.dt := rfl
@[simp] theorem State.push_st (w : Word) (h : s.sp.toNat < 16) : (s.push w h).st = s.st := rfl
@[simp] theorem State.push_mem (w : Word) (h : s.sp.toNat < 16) : (s.push w h).mem = s.mem := rfl
@[simp] theorem State.push_disp (w : Word) (h : s.sp.toNat < 16) : (s.push w h).disp = s.disp := rfl
@[simp] theorem State.push_key (w : Word) (h : s.sp.toNat < 16) : (s.push w h).key = s.key := rfl
@[simp] theorem State.push_fault (w : Word) (h : s.sp.toNat < 16) : (s.push w h).fault = s.fault := rfl
@[simp] theorem State.push_dispExport (w : Word) (h : s.sp.toNat < 16) : (s.push w h).dispExport = s.dispExport := rfl
@[simp] theorem State.push_params (w : Word) (h : s.sp.toNat < 16) : (s.push w h).params = s.params := rfl
@[simp] theorem State.push_draws (w : Word) (h : s.sp.toNat < 16) : (s.push w h).draws = s.draws := rfl

/-! ### timerDecrement -/

@[simp] theorem State.timerDecrement_v : (s.timerDecrement).v = s.v := rfl
@[simp] theorem State.timerDecrement_i : (s.timerDecrement).i = s.i := rfl
@[simp] theorem State.timerDecrement_pc : (s.timerDecrement).pc = s.pc := rfl
@[simp] theorem State.timerDecrement_sp : (s.timerDecrement).sp = s.sp := rfl
@[simp] theorem State.timerDecrement_stack : (s.timerDecrement).stack = s.stack := rfl
@[simp] theorem State.timerDecrement_dt : (s.timerDecrement).dt = decTimer s.dt := rfl
@[simp] theorem State.timerDecrement_st : (s.timerDecrement).st = decTimer s.st := rfl
@[simp] theorem State.timerDecrement_mem : (s.timerDecrement).mem = s.mem := rfl
@[simp] theorem State.timerDecrement_disp : (s.timerDecrement).disp = s.disp := rfl
@[simp] theorem State.timerDecrement_key : (s.timerDecrement).key = s.key := rfl
@[simp] theorem State.timerDecrement_fault : (s.timerDecrement).fault = s.fault := rfl
@[simp] theorem State.timerDecrement_dispExport : (s.timerDecrement).dispExport = s.dispExport := rfl
@[simp] theorem State.timerDecrement_params : (s.timerDecrement).params = s.params := rfl
@[simp] theorem State.timerDecrement_draws : (s.timerDecrement).draws = s.draws := rfl

/-! ### refreshExport -/

@[simp] theorem State.refreshExport_v : (s.refreshExport).v = s.v := rfl
@[simp] theorem State.refreshExport_i : (s.refreshExport).i = s.i := rfl
@[simp] theorem State.refreshExport_pc : (s.refreshExport).pc = s.pc := rfl
@[simp] theorem State.refreshExport_sp : (s.refreshExport).sp = s.sp := rfl
@[simp] theorem State.refreshExport_stack : (s.refreshExport).stack = s.stack := rfl
@[simp] theorem State.refreshExport_dt : (s.refreshExport).dt = s.dt := rfl
@[simp] theorem State.refreshExport_st : (s.refreshExport).st = s.st := rfl
@[simp] theorem State.refreshExport_mem : (s.refreshExport).mem = s.mem := rfl
@[simp] theorem State.refreshExport_disp : (s.refreshExport).disp = s.disp := rfl
@[simp] theorem State.refreshExport_key : (s.refreshExport).key = s.key := rfl
@[simp] theorem State.refreshExport_fault : (s.refreshExport).fault = s.fault := rfl
@[simp] theorem State.refreshExport_dispExport : (s.refreshExport).dispExport = s.disp := rfl
@[simp] theorem State.refreshExport_params : (s.refreshExport).params = s.params := rfl
@[simp] theorem State.refreshExport_draws : (s.refreshExport).draws = s.draws := rfl

/-! ### setKey -/

@[simp] theorem State.setKey_v (k : Nibble) (p : Bool) : (s.setKey k p).v = s.v := rfl
@[simp] theorem State.setKey_i (k : Nibble) (p : Bool) : (s.setKey k p).i = s.i := rfl
@[simp] theorem State.setKey_pc (k : Nibble) (p : Bool) : (s.setKey k p).pc = s.pc := rfl
@[simp] theorem State.setKey_sp (k : Nibble) (p : Bool) : (s.setKey k p).sp = s.sp := rfl
@[simp] theorem State.setKey_stack (k : Nibble) (p : Bool) : (s.setKey k p).stack = s.stack := rfl
@[simp] theorem State.setKey_dt (k : Nibble) (p : Bool) : (s.setKey k p).dt = s.dt := rfl
@[simp] theorem State.setKey_st (k : Nibble) (p : Bool) : (s.setKey k p).st = s.st := rfl
@[simp] theorem State.setKey_mem (k : Nibble) (p : Bool) : (s.setKey k p).mem = s.mem := rfl
@[simp] theorem State.setKey_disp (k : Nibble) (p : Bool) : (s.setKey k p).disp = s.disp := rfl
@[simp] theorem State.setKey_key (k : Nibble) (p : Bool) : (s.setKey k p).key = s.key.set k.toNat p k.isLt := rfl
@[simp] theorem State.setKey_fault (k : Nibble) (p : Bool) : (s.setKey k p).fault = s.fault := rfl
@[simp] theorem State.setKey_dispExport (k : Nibble) (p : Bool) : (s.setKey k p).dispExport = s.dispExport := rfl
@[simp] theorem State.setKey_params (k : Nibble) (p : Bool) : (s.setKey k p).params = s.params := rfl
@[simp] theorem State.setKey_draws (k : Nibble) (p : Bool) : (s.setKey k p).draws = s.draws := rfl

/-! ### placeWord -/

@[simp] theorem State.placeWord_v (w : Word) : (s.placeWord w).v = s.v := rfl
@[simp] theorem State.placeWord_i (w : Word) : (s.placeWord w).i = s.i := rfl
@[simp] theorem State.placeWord_pc (w : Word) : (s.placeWord w).pc = s.pc := rfl
@[simp] theorem State.placeWord_sp (w : Word) : (s.placeWord w).sp = s.sp := rfl
@[simp] theorem State.placeWord_stack (w : Word) : (s.placeWord w).stack = s.stack := rfl
@[simp] theorem State.placeWord_dt (w : Word) : (s.placeWord w).dt = s.dt := rfl
@[simp] theorem State.placeWord_st (w : Word) : (s.placeWord w).st = s.st := rfl
@[simp] theorem State.placeWord_disp (w : Word) : (s.placeWord w).disp = s.disp := rfl
@[simp] theorem State.placeWord_key (w : Word) : (s.placeWord w).key = s.key := rfl
@[simp] theorem State.placeWord_fault (w : Word) : (s.placeWord w).fault = s.fault := rfl
@[simp] theorem State.placeWord_dispExport (w : Word) : (s.placeWord w).dispExport = s.dispExport := rfl
@[simp] theorem State.placeWord_params (w : Word) : (s.placeWord w).params = s.params := rfl
@[simp] theorem State.placeWord_draws (w : Word) : (s.placeWord w).draws = s.draws := rfl

/-! ### advance -/

@[simp] theorem State.advance_v (a : Advance) : (s.advance a).v = s.v := by cases a <;> rfl
@[simp] theorem State.advance_i (a : Advance) : (s.advance a).i = s.i := by cases a <;> rfl
@[simp] theorem State.advance_sp (a : Advance) : (s.advance a).sp = s.sp := by cases a <;> rfl
@[simp] theorem State.advance_stack (a : Advance) : (s.advance a).stack = s.stack := by cases a <;> rfl
@[simp] theorem State.advance_dt (a : Advance) : (s.advance a).dt = s.dt := by cases a <;> rfl
@[simp] theorem State.advance_st (a : Advance) : (s.advance a).st = s.st := by cases a <;> rfl
@[simp] theorem State.advance_mem (a : Advance) : (s.advance a).mem = s.mem := by cases a <;> rfl
@[simp] theorem State.advance_disp (a : Advance) : (s.advance a).disp = s.disp := by cases a <;> rfl
@[simp] theorem State.advance_key (a : Advance) : (s.advance a).key = s.key := by cases a <;> rfl
@[simp] theorem State.advance_fault (a : Advance) : (s.advance a).fault = s.fault := by cases a <;> rfl
@[simp] theorem State.advance_dispExport (a : Advance) : (s.advance a).dispExport = s.dispExport := by cases a <;> rfl
@[simp] theorem State.advance_params (a : Advance) : (s.advance a).params = s.params := by cases a <;> rfl
@[simp] theorem State.advance_draws (a : Advance) : (s.advance a).draws = s.draws := by cases a <;> rfl

/-! ### pc after each outcome (40_cycle.md R68) -/

@[simp] theorem State.advance_next_pc : (s.advance .next).pc = s.pc + 2 := rfl
@[simp] theorem State.advance_skip_pc : (s.advance .skip).pc = s.pc + 4 := rfl
@[simp] theorem State.advance_jumped : s.advance .jumped = s := rfl
@[simp] theorem State.advance_hold : s.advance .hold = s := rfl

/-! ### The end of a cycle: only the timers and the export can change -/

@[simp] theorem State.endCycle_v : s.endCycle.v = s.v := by
  unfold State.endCycle; split <;> rfl
@[simp] theorem State.endCycle_i : s.endCycle.i = s.i := by
  unfold State.endCycle; split <;> rfl
@[simp] theorem State.endCycle_pc : s.endCycle.pc = s.pc := by
  unfold State.endCycle; split <;> rfl
@[simp] theorem State.endCycle_sp : s.endCycle.sp = s.sp := by
  unfold State.endCycle; split <;> rfl
@[simp] theorem State.endCycle_stack : s.endCycle.stack = s.stack := by
  unfold State.endCycle; split <;> rfl
@[simp] theorem State.endCycle_mem : s.endCycle.mem = s.mem := by
  unfold State.endCycle; split <;> rfl
@[simp] theorem State.endCycle_disp : s.endCycle.disp = s.disp := by
  unfold State.endCycle; split <;> rfl
@[simp] theorem State.endCycle_key : s.endCycle.key = s.key := by
  unfold State.endCycle; split <;> rfl
@[simp] theorem State.endCycle_fault : s.endCycle.fault = s.fault := by
  unfold State.endCycle; split <;> rfl
@[simp] theorem State.endCycle_params : s.endCycle.params = s.params := by
  unfold State.endCycle; split <;> rfl
@[simp] theorem State.endCycle_draws : s.endCycle.draws = s.draws := by
  unfold State.endCycle; split <;> rfl
@[simp] theorem State.endCycle_dispExport : s.endCycle.dispExport = s.disp := by
  unfold State.endCycle; split <;> rfl
theorem State.endCycle_dt : s.endCycle.dt = if s.params.timerCoupled then decTimer s.dt else s.dt := by
  unfold State.endCycle; split <;> rfl
theorem State.endCycle_st : s.endCycle.st = if s.params.timerCoupled then decTimer s.st else s.st := by
  unfold State.endCycle; split <;> rfl

/-! ### Register reads after updates -/

theorem State.readV_congr {s t : State} (h : t.v = s.v) (r : Nibble) : t.readV r = s.readV r := by
  simp [State.readV, h]

@[simp] theorem State.readV_writeV_same (r : Nibble) (b : Byte) : (s.writeV r b).readV r = b := by
  simp [State.readV, State.writeV]

theorem State.readV_writeV_ne {q r : Nibble} (h : q ≠ r) (b : Byte) : (s.writeV r b).readV q = s.readV q := by
  have hne : r.toNat ≠ q.toNat := fun e => h (BitVec.eq_of_toNat_eq e.symm)
  simp [State.readV, State.writeV, hne]

theorem State.readV_writeV (q r : Nibble) (b : Byte) :
    (s.writeV r b).readV q = if q = r then b else s.readV q := by
  split
  · next h => subst h; simp
  · next h => exact s.readV_writeV_ne h b

/-- The flag is written last: VF holds the flag whatever x is (42_alu.md R85). -/
theorem State.readV_writeResultFlag (q x : Nibble) (a f : Byte) :
    (s.writeResultFlag x a f).readV q = if q = flagReg then f else if q = x then a else s.readV q := by
  simp [State.writeResultFlag, State.readV_writeV]

@[simp] theorem State.readV_memWrite (q : Nibble) (a : Nat) (b : Byte) : (s.memWrite a b).readV q = s.readV q := rfl
@[simp] theorem State.readV_raise (q : Nibble) (k : FaultKind) (w info : Word) : (s.raise k w info).readV q = s.readV q := rfl
@[simp] theorem State.readV_advance (q : Nibble) (a : Advance) : (s.advance a).readV q = s.readV q := by cases a <;> rfl
@[simp] theorem State.readV_endCycle (q : Nibble) : s.endCycle.readV q = s.readV q :=
  State.readV_congr s.endCycle_v q

/-! ### Memory reads after updates of other fields -/

@[simp] theorem State.memRead_writeV (a : Nat) (r : Nibble) (b : Byte) : (s.writeV r b).memRead a = s.memRead a := rfl
@[simp] theorem State.memRead_raise (a : Nat) (k : FaultKind) (w info : Word) : (s.raise k w info).memRead a = s.memRead a := rfl
@[simp] theorem State.memRead_advance (a : Nat) (d : Advance) : (s.advance d).memRead a = s.memRead a := by
  cases d <;> rfl

end Sys2Proof.Machine
end

