-- ==== Sys2Proof/Laws/Memory.lean ====
section
/-! SUPPORT. Memory: what a read returns after a write, and that every memory operation keeps the canonical form. -/

namespace Sys2Proof.Machine

@[simp] theorem Memory.read_nil (a : Nat) : Memory.read [] a = resetByte a := rfl

theorem Memory.read_cons (a' : Nat) (b : Byte) (m : Memory) (a : Nat) :
    Memory.read ((a', b) :: m) a = if a = a' then b else Memory.read m a := rfl

/-- A canonical list from `lo` on lists no address below `lo`. -/
theorem Memory.read_of_lt {lo : Nat} {m : Memory} (h : Memory.wfFrom lo m = true) {a : Nat} (ha : a < lo) :
    Memory.read m a = resetByte a := by
  induction m generalizing lo with
  | nil => rfl
  | cons c m ih =>
    obtain ⟨a', b⟩ := c
    simp only [Memory.wfFrom, Bool.and_eq_true, decide_eq_true_eq] at h
    rw [Memory.read_cons, if_neg (by omega)]
    exact ih h.2 (by omega)

theorem Memory.wfFrom_mono {lo lo' : Nat} (hle : lo ≤ lo') {m : Memory} (h : Memory.wfFrom lo' m = true) :
    Memory.wfFrom lo m = true := by
  cases m with
  | nil => rfl
  | cons c m =>
    simp only [Memory.wfFrom, Bool.and_eq_true, decide_eq_true_eq] at h ⊢
    exact ⟨⟨⟨by omega, h.1.1.2⟩, h.1.2⟩, h.2⟩

theorem Memory.wfFrom_cons' {lo a : Nat} {b : Byte} {m : Memory} (hlo : lo ≤ a) (ha : a < 4096)
    (h : Memory.wfFrom (a + 1) m = true) : Memory.wfFrom lo (Memory.cons a b m) = true := by
  unfold Memory.cons
  split
  · exact Memory.wfFrom_mono (by omega) h
  · next hb => simp [Memory.wfFrom, hlo, ha, hb, h]

theorem Memory.wfFrom_write {lo a : Nat} {b : Byte} {m : Memory} (h : Memory.wfFrom lo m = true) (hlo : lo ≤ a)
    (ha : a < 4096) : Memory.wfFrom lo (Memory.write m a b) = true := by
  induction m generalizing lo with
  | nil => exact Memory.wfFrom_cons' hlo ha rfl
  | cons c m ih =>
    obtain ⟨a', b'⟩ := c
    have h' := h
    simp only [Memory.wfFrom, Bool.and_eq_true, decide_eq_true_eq] at h
    unfold Memory.write
    split
    · refine Memory.wfFrom_cons' hlo ha ?_
      simp only [Memory.wfFrom, Bool.and_eq_true, decide_eq_true_eq]
      exact ⟨⟨⟨by omega, h.1.1.2⟩, h.1.2⟩, h.2⟩
    · split
      · next heq => subst heq; exact Memory.wfFrom_cons' hlo ha h.2
      · simp only [Memory.wfFrom, Bool.and_eq_true, decide_eq_true_eq]
        exact ⟨h.1, ih h.2 (by omega)⟩

/-- A write below 0x1000 keeps the canonical form. -/
theorem Memory.wf_write {m : Memory} (h : Memory.wf m = true) {a : Nat} (ha : a < 4096) (b : Byte) :
    Memory.wf (Memory.write m a b) = true :=
  Memory.wfFrom_write h (Nat.zero_le _) ha

/-- MemWrite keeps the canonical form, whatever the address. -/
theorem State.memWrite_wf {s : State} (h : Memory.wf s.mem = true) (a : Nat) (b : Byte) :
    Memory.wf (s.memWrite a b).mem = true :=
  Memory.wf_write h (Nat.mod_lt _ (by decide)) b

theorem Memory.read_cons' {a' : Nat} {b : Byte} {m : Memory} (h : Memory.wfFrom (a' + 1) m = true) (a : Nat) :
    Memory.read (Memory.cons a' b m) a = if a = a' then b else Memory.read m a := by
  unfold Memory.cons
  split
  · next hb =>
    split
    · next e => subst e; rw [Memory.read_of_lt h (Nat.lt_succ_self _), hb]
    · rfl
  · rfl

theorem Memory.read_write_from {lo : Nat} {m : Memory} (h : Memory.wfFrom lo m = true) (a : Nat) (b : Byte)
    (a₁ : Nat) : Memory.read (Memory.write m a b) a₁ = if a₁ = a then b else Memory.read m a₁ := by
  induction m generalizing lo with
  | nil => exact Memory.read_cons' (m := []) rfl a₁
  | cons c m ih =>
    obtain ⟨a', b'⟩ := c
    have hw := h
    simp only [Memory.wfFrom, Bool.and_eq_true, decide_eq_true_eq] at h
    unfold Memory.write
    split
    · next hlt =>
      refine Memory.read_cons' ?_ a₁
      simp only [Memory.wfFrom, Bool.and_eq_true, decide_eq_true_eq]
      exact ⟨⟨⟨by omega, h.1.1.2⟩, h.1.2⟩, h.2⟩
    · split
      · next heq =>
        subst heq
        rw [Memory.read_cons' h.2]
        split
        · rfl
        · next hne => rw [Memory.read_cons, if_neg hne]
      · next hlt hne =>
        rw [Memory.read_cons, ih h.2, Memory.read_cons]
        by_cases e : a₁ = a'
        · subst e; rw [if_pos rfl, if_pos rfl, if_neg (by omega)]
        · rw [if_neg e, if_neg e]

/-- A read after a write: the byte written there, else what was read before. -/
theorem Memory.read_write {m : Memory} (h : Memory.wf m = true) (a : Nat) (b : Byte) (a₁ : Nat) :
    Memory.read (Memory.write m a b) a₁ = if a₁ = a then b else Memory.read m a₁ :=
  Memory.read_write_from h a b a₁

/-- MemRead after MemWrite (20_memory.md R36, R44). -/
theorem State.memRead_memWrite {s : State} (h : Memory.wf s.mem = true) (a : Nat) (b : Byte) (a₁ : Nat) :
    (s.memWrite a b).memRead a₁ = if a₁ % 4096 = a % 4096 then b else s.memRead a₁ :=
  Memory.read_write h _ _ _

/-- An address is reduced modulo 4096 (00_scope.md R11). -/
theorem State.memRead_mod (s : State) (a : Nat) : s.memRead (a % 4096) = s.memRead a := by
  simp [State.memRead]

/-- Dropping the entries from an address on keeps the canonical form (70_reset_and_hazards.md R139). -/
theorem Memory.wfFrom_keepFont {lo : Nat} {m : Memory} (h : Memory.wfFrom lo m = true) :
    Memory.wfFrom lo (Memory.keepFont m) = true := by
  induction m generalizing lo with
  | nil => rfl
  | cons c m ih =>
    obtain ⟨a, b⟩ := c
    simp only [Memory.wfFrom, Bool.and_eq_true, decide_eq_true_eq] at h
    simp only [Memory.keepFont, List.filter_cons] at ih ⊢
    split
    · simp only [Memory.wfFrom, Bool.and_eq_true, decide_eq_true_eq]
      exact ⟨h.1, ih h.2⟩
    · exact Memory.wfFrom_mono (by omega) (ih h.2)

/-- Reload's memory is canonical. -/
theorem Memory.wf_keepFont {m : Memory} (h : Memory.wf m = true) : Memory.wf (Memory.keepFont m) = true :=
  Memory.wfFrom_keepFont h

/-- The memory at reset is canonical. -/
theorem State.reset_wf : Memory.wf State.reset.mem = true := rfl

end Sys2Proof.Machine
end

