-- ==== Sys2Proof/Laws/Ops.lean ====
section
/-! SUPPORT. What each shared operation can do, once: the answers of `complete`, `skipIf` and `raised`, the loops, the
fault register, the stack, and the shape of one step. -/

namespace Sys2Proof.Machine

/-! ### Loops -/

@[simp] theorem forUpTo_zero {α : Type} (f : Nat → α → α) (a : α) : forUpTo 0 f a = a := rfl

@[simp] theorem forUpTo_succ {α : Type} (n : Nat) (f : Nat → α → α) (a : α) :
    forUpTo (n + 1) f a = f n (forUpTo n f a) := rfl

/-- A property that holds at the start and that every pass keeps holds at the end. -/
theorem forUpTo_keeps {α : Type} (P : α → Prop) {f : Nat → α → α} {a : α} (n : Nat) (h0 : P a)
    (hs : ∀ k a, k < n → P a → P (f k a)) : P (forUpTo n f a) := by
  induction n with
  | zero => exact h0
  | succ n ih =>
    exact hs n _ (Nat.lt_succ_self n) (ih fun k a hk => hs k a (Nat.lt_succ_of_lt hk))

/-! ### Answers -/

theorem complete_next {a : Advance} {s t : State} : complete a s = .next t ↔ t = s.advance a := by
  simp [complete, eq_comm]

theorem skipIf_next {c : Bool} {s t : State} :
    skipIf c s = .next t ↔ t = { s with pc := if c then s.pc + 4 else s.pc + 2 } := by
  cases c <;> simp [skipIf, complete, State.advance, eq_comm]

theorem raised_next {k : FaultKind} {w info : Word} {s t : State} :
    raised k w info s = .next t ↔ t = s.raise k w info := by
  simp [raised, eq_comm]

/-! ### The fault register -/

@[simp] theorem State.raise_isSome (s : State) (k : FaultKind) (w info : Word) :
    (s.raise k w info).fault.isSome = true := rfl

/-- resume_skip, by the fault register's contents (60_exceptions.md R120). -/
theorem State.resumeSkip_cases (s : State) :
    (∃ r, s.fault = some r ∧ r.kind = .unknownOpcode ∧ s.resumeSkip = { s with pc := s.pc + 2, fault := none }) ∨
      ((∀ r, s.fault = some r → r.kind ≠ .unknownOpcode) ∧ s.resumeSkip = s) := by
  unfold State.resumeSkip
  split
  · next r hr =>
    by_cases hk : r.kind = .unknownOpcode
    · exact .inl ⟨r, hr, hk, if_pos hk⟩
    · refine .inr ⟨?_, if_neg hk⟩
      intro r' hr'
      rw [hr] at hr'
      injection hr' with e
      exact e ▸ hk
  · next hn => exact .inr ⟨fun r hr => by simp [hn] at hr, rfl⟩

/-! ### Timers -/

theorem decTimer_toNat (b : Byte) : (decTimer b).toNat = b.toNat - 1 := by
  unfold decTimer
  split
  · next h => simp [h]
  · next h =>
    have hb : b.toNat ≠ 0 := fun e => h (BitVec.eq_of_toNat_eq e)
    have := b.isLt
    simp [BitVec.toNat_sub]
    omega

/-! ### Operands -/

theorem indexOf_eq_some {b : Byte} {k : Nibble} : indexOf b = some k ↔ b.toNat ≤ 0xF ∧ k.toNat = b.toNat := by
  unfold indexOf
  split
  · next h =>
    simp only [Option.some.injEq, h, true_and, ← BitVec.toNat_inj, BitVec.toNat_setWidth]
    rw [Nat.mod_eq_of_lt (by omega)]
    exact eq_comm
  · next h => simp [h]

theorem indexOf_eq_none {b : Byte} : indexOf b = none ↔ 0xF < b.toNat := by
  unfold indexOf
  split <;> simp <;> omega

theorem mem_allKeys (k : Nibble) : k ∈ allKeys := by
  revert k; decide

theorem State.mem_pressedKeys {s : State} {k : Nibble} : k ∈ s.pressedKeys ↔ s.readKey k = true := by
  simp [State.pressedKeys, mem_allKeys]

/-- The chosen key is one of those offered. -/
theorem chooseKey_mem (k : Nibble) (ks : List Nibble) (n : Nat) : chooseKey k ks n ∈ k :: ks := by
  induction ks generalizing k n with
  | nil => simp [chooseKey]
  | cons k' ks ih =>
    cases n with
    | zero => simp [chooseKey]
    | succ n => exact List.mem_cons_of_mem _ (ih k' n)

/-- Every key offered is chosen by some draw (45_keypad_timers.md R110: any pressed key). -/
theorem chooseKey_surjective {k q : Nibble} {ks : List Nibble} (h : q ∈ k :: ks) : ∃ n, chooseKey k ks n = q := by
  induction ks generalizing k with
  | nil => exact ⟨0, by simpa [chooseKey, eq_comm] using h⟩
  | cons k' ks ih =>
    rcases List.mem_cons.mp h with e | h
    · exact ⟨0, by simp [chooseKey, e]⟩
    · obtain ⟨n, hn⟩ := ih h
      exact ⟨n + 1, hn⟩

/-! ### The store and load loops -/

/-- A store of registers writes memory alone (43_index_memory.md R102). -/
theorem State.storeRegs_frame (s : State) (n : Nat) : s.storeRegs n = { s with mem := (s.storeRegs n).mem } := by
  unfold State.storeRegs
  refine forUpTo_keeps (fun t : State => t = { s with mem := t.mem }) n rfl fun k t _ ht => ?_
  rw [ht]
  rfl

/-- A load of registers writes general registers alone (43_index_memory.md R103). -/
theorem State.loadRegs_frame (s : State) (n : Nat) : s.loadRegs n = { s with v := (s.loadRegs n).v } := by
  unfold State.loadRegs
  refine forUpTo_keeps (fun t : State => t = { s with v := t.v }) n rfl fun k t _ ht => ?_
  rw [ht]
  rfl

/-- A store of registers keeps the canonical form. -/
theorem State.storeRegs_wf {s : State} (h : Memory.wf s.mem = true) (n : Nat) : Memory.wf (s.storeRegs n).mem = true := by
  unfold State.storeRegs
  exact forUpTo_keeps (fun t : State => Memory.wf t.mem = true) n h fun k t _ ht => State.memWrite_wf ht _ _

/-- What a read finds after a store of n registers: the register stored there, or the byte that was there
(43_index_memory.md R102). -/
theorem State.memRead_storeRegs {s : State} (h : Memory.wf s.mem = true) {n : Nat} (hn : n ≤ 16) :
    (∀ k, k < n → (s.storeRegs n).memRead (s.i.toNat + k) = s.readV (BitVec.ofNat 4 k)) ∧
      ∀ a, (∀ k, k < n → a % 4096 ≠ (s.i.toNat + k) % 4096) → (s.storeRegs n).memRead a = s.memRead a := by
  induction n with
  | zero => exact ⟨fun k hk => absurd hk (Nat.not_lt_zero k), fun a _ => rfl⟩
  | succ n ih =>
    obtain ⟨stored, kept⟩ := ih (by omega)
    have hwf := State.storeRegs_wf h n
    have hd : s.dataAddr n % 4096 = (s.i.toNat + n) % 4096 := by simp [State.dataAddr]
    have he : s.storeRegs (n + 1) = (s.storeRegs n).memWrite (s.dataAddr n) (s.readV (BitVec.ofNat 4 n)) := rfl
    rw [he]
    refine ⟨fun k hk => ?_, fun a ha => ?_⟩
    · rw [State.memRead_memWrite hwf, hd]
      split
      · rw [show k = n by omega]
      · exact stored k (by omega)
    · rw [State.memRead_memWrite hwf, hd, if_neg (ha n (by omega))]
      exact kept a fun k hk => ha k (by omega)

/-- What a register holds after a load of n registers (43_index_memory.md R103). -/
theorem State.readV_loadRegs (s : State) {n : Nat} (hn : n ≤ 16) (r : Nibble) :
    (s.loadRegs n).readV r = if r.toNat < n then s.memRead (s.i.toNat + r.toNat) else s.readV r := by
  induction n with
  | zero => rfl
  | succ n ih =>
    have he : s.loadRegs (n + 1) = (s.loadRegs n).writeV (BitVec.ofNat 4 n) (s.memRead (s.dataAddr n)) := rfl
    have hr : r = BitVec.ofNat 4 n ↔ r.toNat = n := by
      rw [← BitVec.toNat_inj, BitVec.toNat_ofNat, Nat.mod_eq_of_lt (by omega)]
    rw [he, State.readV_writeV, ih (by omega)]
    by_cases e : r.toNat = n
    · rw [if_pos (hr.mpr e), if_pos (by omega), ← e, State.dataAddr, State.memRead_mod]
    · rw [if_neg fun h => e (hr.mp h)]
      by_cases l : r.toNat < n
      · rw [if_pos l, if_pos (by omega)]
      · rw [if_neg l, if_neg (by omega)]

/-- An image load writes memory alone (60_exceptions.md R132). -/
theorem State.writeImage_frame (s : State) (a : Nat) (image : List Byte) :
    s.writeImage a image = { s with mem := (s.writeImage a image).mem } := by
  induction image generalizing s a with
  | nil => rfl
  | cons b image ih =>
    rw [State.writeImage, ih]
    rfl

/-- An image load keeps the canonical form. -/
theorem State.writeImage_wf {s : State} (h : Memory.wf s.mem = true) (a : Nat) (image : List Byte) :
    Memory.wf (s.writeImage a image).mem = true := by
  induction image generalizing s a with
  | nil => exact h
  | cons b image ih => exact ih (State.memWrite_wf h a b) (a + 1)

/-- The memory that Reset leaves is canonical, whatever the font. -/
theorem fontMemory_wf (f : Font) : Memory.wf (fontMemory f) = true := by
  unfold fontMemory
  exact forUpTo_keeps (fun m : Memory => Memory.wf m = true) 80 rfl fun k m hk hm => Memory.wf_write hm (by omega) _

/-! ### The display -/

/-- A toggle inverts one cell and leaves every other. -/
theorem Display.cell_toggle (d : Display) (c q : Fin 64) (r p : Fin 32) :
    Display.cell (Display.toggle d c r) q p = if q = c ∧ p = r then !Display.cell d c r else Display.cell d q p := by
  unfold Display.cell Display.toggle
  by_cases hc : q = c
  · subst hc
    by_cases hr : p = r
    · subst hr
      simp
    · have : r.val ≠ p.val := fun e => hr (Fin.ext e.symm)
      simp [hr, this]
  · have : c.val ≠ q.val := fun e => hc (Fin.ext e.symm)
    simp [hc, this]

@[simp] theorem blankDisplay_cell (c : Fin 64) (r : Fin 32) : Display.cell blankDisplay c r = false := by
  simp [Display.cell, blankDisplay]

/-! ### The shape of a step -/

/-- The fetch check, on numbers (40_cycle.md R66). -/
theorem pcInRange_iff (pc : Word) :
    pcInRange pc = true ↔ pc.toNat % 2 = 0 ∧ 0x200 ≤ pc.toNat ∧ pc.toNat ≤ 0xFFE := by
  have h0 : pc.getLsbD 0 = decide (pc.toNat % 2 = 1) := by simp [BitVec.getLsbD, Nat.testBit_zero]
  simp only [pcInRange, h0, Bool.and_eq_true, decide_eq_true_eq, Bool.not_eq_true', decide_eq_false_iff_not]
  omega

/-- What the end of a cycle can answer (40_cycle.md R70 to R72). -/
theorem finishCycle_next {o : Host.Outcome State Fault Refusal} {t : State} :
    finishCycle o = .next t ↔
      (o = .next t ∧ t.fault.isSome = true) ∨ ∃ u, o = .next u ∧ u.fault = none ∧ t = u.endCycle := by
  cases o with
  | next u =>
    simp only [finishCycle]
    by_cases h : u.fault.isSome = true
    · rw [if_pos h]
      constructor
      · intro e
        cases e
        exact .inl ⟨rfl, h⟩
      · rintro (⟨e, -⟩ | ⟨u', e, hn, -⟩)
        · exact e
        · cases e
          simp [hn] at h
    · rw [if_neg h]
      have hn : u.fault = none := by simpa using h
      constructor
      · intro e
        cases e
        exact .inr ⟨u, rfl, hn, rfl⟩
      · rintro (⟨e, hs⟩ | ⟨u', e, -, rfl⟩)
        · cases e
          exact absurd hs h
        · cases e
          rfl
  | fault f => simp [finishCycle]
  | refused r => simp [finishCycle]

/-- Everything a step that answers a next state can have done (40_cycle.md R65 to R73). -/
theorem step_cases {s t : State} (h : step s = .next t) :
    s.fault = none ∧
      ((pcInRange s.pc = false ∧ t = s.raise .pcOutOfRange 0 s.pc) ∨
        (pcInRange s.pc = true ∧
          ((∃ e, decode s.params.canonicalDecode s.fetchWord = .error e ∧
              t = s.raise .unknownOpcode s.fetchWord s.fetchWord) ∨
            ∃ i, decode s.params.canonicalDecode s.fetchWord = .ok i ∧
              ((exec i s = .next t ∧ t.fault.isSome = true) ∨
                ∃ u, exec i s = .next u ∧ u.fault = none ∧ t = u.endCycle)))) := by
  unfold step at h
  split at h
  · cases h
  · next hf =>
    refine ⟨hf, ?_⟩
    unfold cycle at h
    split at h
    · next hp =>
      refine .inr ⟨hp, ?_⟩
      unfold dispatchWord at h
      split at h
      · next i hi => exact .inr ⟨i, hi, finishCycle_next.mp h⟩
      · next e he => exact .inl ⟨e, he, raised_next.mp h⟩
    · next hp => exact .inl ⟨by simpa using hp, raised_next.mp h⟩

end Sys2Proof.Machine
end

