-- ==== Sys2Proof/Laws/PerInstr.lean ====
section
/-! SUPPORT. The per-instruction family TableRow: the word of an instruction has the match of its row under the row's
mask (30_encoding.md R59, R60). -/

namespace Sys2Proof.Laws.TableRow

/-- In every mode that admits the instruction, its word selects its row of the opcode map. -/
def Statement (i : Instr) : Prop := ∀ c, i.wellFormed c = true → (opcodeRow c i).selects (encode i) = true

theorem cls : Statement (.cls) := by
  intro c _
  revert c
  decide

theorem ret : Statement (.ret) := by
  intro c _
  revert c
  decide

theorem jp (nnn : Addr12) : Statement (.jp nnn) := by
  intro c _
  simp [OpcodeRow.selects, opcodeRow, encode, packAddr_mask]
  decide

theorem call (nnn : Addr12) : Statement (.call nnn) := by
  intro c _
  simp [OpcodeRow.selects, opcodeRow, encode, packAddr_mask]
  decide

theorem seImm (x : Nibble) (kk : Byte) : Statement (.seImm x kk) := by
  intro c _
  simp [OpcodeRow.selects, opcodeRow, encode, packByte_mask_op]
  decide

theorem sneImm (x : Nibble) (kk : Byte) : Statement (.sneImm x kk) := by
  intro c _
  simp [OpcodeRow.selects, opcodeRow, encode, packByte_mask_op]
  decide

theorem seReg (x y z : Nibble) : Statement (.seReg x y z) := by
  intro c h
  cases c <;> simp_all [OpcodeRow.selects, opcodeRow, encode, Instr.wellFormed, 
    packNibbles_mask_op, packNibbles_mask_ends] <;> decide

theorem ldImm (x : Nibble) (kk : Byte) : Statement (.ldImm x kk) := by
  intro c _
  simp [OpcodeRow.selects, opcodeRow, encode, packByte_mask_op]
  decide

theorem addImm (x : Nibble) (kk : Byte) : Statement (.addImm x kk) := by
  intro c _
  simp [OpcodeRow.selects, opcodeRow, encode, packByte_mask_op]
  decide

theorem ldReg (x y : Nibble) : Statement (.ldReg x y) := by
  intro c _
  simp [OpcodeRow.selects, opcodeRow, encode, packNibbles_mask_ends]
  decide

theorem orReg (x y : Nibble) : Statement (.orReg x y) := by
  intro c _
  simp [OpcodeRow.selects, opcodeRow, encode, packNibbles_mask_ends]
  decide

theorem andReg (x y : Nibble) : Statement (.andReg x y) := by
  intro c _
  simp [OpcodeRow.selects, opcodeRow, encode, packNibbles_mask_ends]
  decide

theorem xorReg (x y : Nibble) : Statement (.xorReg x y) := by
  intro c _
  simp [OpcodeRow.selects, opcodeRow, encode, packNibbles_mask_ends]
  decide

theorem addReg (x y : Nibble) : Statement (.addReg x y) := by
  intro c _
  simp [OpcodeRow.selects, opcodeRow, encode, packNibbles_mask_ends]
  decide

theorem subReg (x y : Nibble) : Statement (.subReg x y) := by
  intro c _
  simp [OpcodeRow.selects, opcodeRow, encode, packNibbles_mask_ends]
  decide

theorem shr (x y : Nibble) : Statement (.shr x y) := by
  intro c _
  simp [OpcodeRow.selects, opcodeRow, encode, packNibbles_mask_ends]
  decide

theorem subnReg (x y : Nibble) : Statement (.subnReg x y) := by
  intro c _
  simp [OpcodeRow.selects, opcodeRow, encode, packNibbles_mask_ends]
  decide

theorem shl (x y : Nibble) : Statement (.shl x y) := by
  intro c _
  simp [OpcodeRow.selects, opcodeRow, encode, packNibbles_mask_ends]
  decide

theorem sneReg (x y z : Nibble) : Statement (.sneReg x y z) := by
  intro c h
  cases c <;> simp_all [OpcodeRow.selects, opcodeRow, encode, Instr.wellFormed, 
    packNibbles_mask_op, packNibbles_mask_ends] <;> decide

theorem ldI (nnn : Addr12) : Statement (.ldI nnn) := by
  intro c _
  simp [OpcodeRow.selects, opcodeRow, encode, packAddr_mask]
  decide

theorem jpV0 (nnn : Addr12) : Statement (.jpV0 nnn) := by
  intro c _
  simp [OpcodeRow.selects, opcodeRow, encode, packAddr_mask]
  decide

theorem rnd (x : Nibble) (kk : Byte) : Statement (.rnd x kk) := by
  intro c _
  simp [OpcodeRow.selects, opcodeRow, encode, packByte_mask_op]
  decide

theorem drw (x y n : Nibble) : Statement (.drw x y n) := by
  intro c _
  simp [OpcodeRow.selects, opcodeRow, encode, packNibbles_mask_op]
  decide

theorem skp (x y : Nibble) : Statement (.skp x y) := by
  intro c h
  cases c <;> simp_all [OpcodeRow.selects, opcodeRow, encode, Instr.wellFormed, 
    packNibbles_mask_ends, packNibbles_mask_not_x] <;> decide

theorem sknp (x y : Nibble) : Statement (.sknp x y) := by
  intro c h
  cases c <;> simp_all [OpcodeRow.selects, opcodeRow, encode, Instr.wellFormed, 
    packNibbles_mask_ends, packNibbles_mask_not_x] <;> decide

theorem ldVxDT (x : Nibble) : Statement (.ldVxDT x) := by
  intro c _
  simp [OpcodeRow.selects, opcodeRow, encode, packByte_mask_not_x]
  decide

theorem ldVxK (x : Nibble) : Statement (.ldVxK x) := by
  intro c _
  simp [OpcodeRow.selects, opcodeRow, encode, packByte_mask_not_x]
  decide

theorem ldDTVx (x : Nibble) : Statement (.ldDTVx x) := by
  intro c _
  simp [OpcodeRow.selects, opcodeRow, encode, packByte_mask_not_x]
  decide

theorem ldSTVx (x : Nibble) : Statement (.ldSTVx x) := by
  intro c _
  simp [OpcodeRow.selects, opcodeRow, encode, packByte_mask_not_x]
  decide

theorem addI (x : Nibble) : Statement (.addI x) := by
  intro c _
  simp [OpcodeRow.selects, opcodeRow, encode, packByte_mask_not_x]
  decide

theorem ldF (x : Nibble) : Statement (.ldF x) := by
  intro c _
  simp [OpcodeRow.selects, opcodeRow, encode, packByte_mask_not_x]
  decide

theorem ldB (x : Nibble) : Statement (.ldB x) := by
  intro c _
  simp [OpcodeRow.selects, opcodeRow, encode, packByte_mask_not_x]
  decide

theorem storeRegs (x : Nibble) : Statement (.storeRegs x) := by
  intro c _
  simp [OpcodeRow.selects, opcodeRow, encode, packByte_mask_not_x]
  decide

theorem loadRegs (x : Nibble) : Statement (.loadRegs x) := by
  intro c _
  simp [OpcodeRow.selects, opcodeRow, encode, packByte_mask_not_x]
  decide

end Sys2Proof.Laws.TableRow
end

