-- ==== Sys2Proof/Tests/Slice0.lean ====
section
/-! SUPPORT. Tests: well-formedness, decoding from words written out bit by bit, single steps with the expected results
of 95_test_vectors.md (the vector's name is in each docstring), and a witness for every obligation that has
hypotheses. -/

namespace Sys2Proof.Tests

open Sys2Proof Sys2Proof.Machine

/-! ### Well-formedness (30_encoding.md R60): an ill-formed term for each check -/

theorem test_wf_refuses_seReg : (Instr.seReg 1 2 1).wellFormed true = false := by decide
theorem test_wf_refuses_sneReg : (Instr.sneReg 1 2 0xF).wellFormed true = false := by decide
theorem test_wf_refuses_skp : (Instr.skp 1 0).wellFormed true = false := by decide
theorem test_wf_refuses_sknp : (Instr.sknp 1 1).wellFormed true = false := by decide
theorem test_wf_doc_mode_admits : (Instr.skp 1 0).wellFormed false = true ∧ (Instr.seReg 1 2 1).wellFormed false = true := by
  decide

/-! ### Decoding: a word for every constructor, from the patterns of 30_encoding.md R59 -/

theorem test_decode_control :
    decode false 0b0000000011100000#16 = .ok .cls ∧ decode false 0b0000000011101110#16 = .ok .ret ∧
    decode false 0b0001101010111100#16 = .ok (.jp 0xABC) ∧ decode false 0b0010010000000001#16 = .ok (.call 0x401) ∧
    decode false 0b1011001100000000#16 = .ok (.jpV0 0x300) := by decide

theorem test_decode_skips :
    decode false 0b0011001101000010#16 = .ok (.seImm 0x3 0x42) ∧ decode false 0b0100001101000010#16 = .ok (.sneImm 0x3 0x42) ∧
    decode false 0b0101000100100001#16 = .ok (.seReg 0x1 0x2 0x1) ∧
    decode false 0b1001000100101111#16 = .ok (.sneReg 0x1 0x2 0xF) ∧
    decode false 0b1110000100001110#16 = .ok (.skp 0x1 0x0) ∧ decode false 0b1110000110100001#16 = .ok (.sknp 0x1 0xA) := by
  decide

theorem test_decode_loads :
    decode false 0b0110101000101111#16 = .ok (.ldImm 0xA 0x2F) ∧ decode false 0b0111000100000010#16 = .ok (.addImm 0x1 0x02) ∧
    decode false 0b1100000100001111#16 = .ok (.rnd 0x1 0x0F) ∧ decode false 0b1010001011110000#16 = .ok (.ldI 0x2F0) ∧
    decode false 0b1101101010110101#16 = .ok (.drw 0xA 0xB 0x5) := by decide

theorem test_decode_family8 :
    decode false 0b1000000100100000#16 = .ok (.ldReg 1 2) ∧ decode false 0b1000000100100001#16 = .ok (.orReg 1 2) ∧
    decode false 0b1000000100100010#16 = .ok (.andReg 1 2) ∧ decode false 0b1000000100100011#16 = .ok (.xorReg 1 2) ∧
    decode false 0b1000000100100100#16 = .ok (.addReg 1 2) ∧ decode false 0b1000000100100101#16 = .ok (.subReg 1 2) ∧
    decode false 0b1000000100100110#16 = .ok (.shr 1 2) ∧ decode false 0b1000000100100111#16 = .ok (.subnReg 1 2) ∧
    decode false 0b1000000100101110#16 = .ok (.shl 1 2) := by decide

theorem test_decode_familyF :
    decode false 0b1111000100000111#16 = .ok (.ldVxDT 1) ∧ decode false 0b1111001000001010#16 = .ok (.ldVxK 2) ∧
    decode false 0b1111010000010101#16 = .ok (.ldDTVx 4) ∧ decode false 0b1111010000011000#16 = .ok (.ldSTVx 4) ∧
    decode false 0b1111001000011110#16 = .ok (.addI 2) ∧ decode false 0b1111001100101001#16 = .ok (.ldF 3) ∧
    decode false 0b1111001100110011#16 = .ok (.ldB 3) ∧ decode false 0b1111000101010101#16 = .ok (.storeRegs 1) ∧
    decode false 0b1111000101100101#16 = .ok (.loadRegs 1) := by decide

/-- TD3 to TD6, TD10, TD11: unknown in doc mode. -/
theorem test_decode_unknown_0_8 : decode false 0x0000#16 = .error (.unknownOpcode 0x0000) ∧
    decode false 0x00E1#16 = .error (.unknownOpcode 0x00E1) ∧ decode false 0x01EE#16 = .error (.unknownOpcode 0x01EE) ∧
    decode false 0x0123#16 = .error (.unknownOpcode 0x0123) ∧ decode false 0x8128#16 = .error (.unknownOpcode 0x8128) ∧
    decode false 0x812F#16 = .error (.unknownOpcode 0x812F) := by decide
/-- TD17, TD19, TD21, TD22: unknown in both modes. -/
theorem test_decode_unknown_E_F : decode false 0xE1A2#16 = .error (.unknownOpcode 0xE1A2) ∧
    decode true 0xE1A2#16 = .error (.unknownOpcode 0xE1A2) ∧ decode false 0xF108#16 = .error (.unknownOpcode 0xF108) ∧
    decode true 0xF166#16 = .error (.unknownOpcode 0xF166) ∧ decode true 0xFFFF#16 = .error (.unknownOpcode 0xFFFF) := by
  decide
/-- TD8, TD9, TD14, TD16: unknown in canonical mode only. -/
theorem test_decode_canonical : decode true 0x5121#16 = .error (.unknownOpcode 0x5121) ∧
    decode true 0x912F#16 = .error (.unknownOpcode 0x912F) ∧ decode true 0xE10E#16 = .error (.unknownOpcode 0xE10E) ∧
    decode true 0xE111#16 = .error (.unknownOpcode 0xE111) := by decide

theorem test_decode_truncated : decodeBytes false [0x12] = .error .truncated := by decide

/-- The rows of R59 are pairwise disjoint, and so are R60's. -/
theorem test_rows_disjoint : ∀ c, (opcodeTable c).Pairwise
    (fun r r' => ((r.pattern ^^^ r'.pattern) &&& (r.mask &&& r'.mask)) ≠ 0) := by decide

/-- Row numbers of spec/opcode_table.json: the host's view reads every sample's own word. -/
theorem test_table_word : ∀ i ∈ opcodeSamples, decodeTableWord 16 (encode i).toNat = some i := by decide

/-! ### Single steps -/

/-- One step on `s` with the word `w` placed at pc answers a next state that passes the check. -/
def after (w : Nat) (s : State) (check : State → Bool) : Bool :=
  match step (s.withFetchWord 16 w) with
  | .next t => check t
  | .fault _ => false
  | .refused _ => false

/-- The reset state with V1 = a, V2 = b and VF = 0x77. -/
def ab (a b : Byte) : State := ((State.reset.writeV 1 a).writeV 2 b).writeV 0xF 0x77

/-- The reset state with other parameters. -/
def withParams (coupled : Bool) (source : ShiftSource) : State :=
  { State.reset with params := { defaultParams with timerCoupled := coupled, shiftSource := source } }

/-- TG1. -/
theorem test_cls : after 0x00E0 { State.reset with disp := State.reset.disp.toggle 5 6 }
    (fun t => t.pc == 0x202 && !t.disp.cell 5 6 && !t.dispExport.cell 5 6) = true := by decide
/-- TC18. -/
theorem test_ret : after 0x00EE { State.reset with pc := 0x300, sp := 2, stack := State.reset.stack.set 1 0x0250 }
    (fun t => t.pc == 0x252 && t.sp == 1 && t.stack[1] == 0x250) = true := by decide
/-- TC5. -/
theorem test_ret_underflow : after 0x00EE { State.reset with pc := 0x300 }
    (fun t => t.fault == some ⟨.stackUnderflow, 0x300, 0x00EE, 0⟩ && t.pc == 0x300) = true := by decide
/-- TC1. -/
theorem test_jp : after 0x1ABC State.reset (fun t => t.pc == 0xABC) = true := by decide
/-- TC3. -/
theorem test_call : after 0x2400 { State.reset with sp := 15 }
    (fun t => t.pc == 0x400 && t.sp == 16 && t.stack[15] == 0x200) = true := by decide
/-- TC4. -/
theorem test_call_overflow : after 0x2400 { State.reset with sp := 16 }
    (fun t => t.fault == some ⟨.stackOverflow, 0x200, 0x2400, 16⟩ && t.pc == 0x200 && t.sp == 16) = true := by decide
/-- TC6, TC7. -/
theorem test_seImm : after 0x3342 (State.reset.writeV 3 0x42) (fun t => t.pc == 0x204) = true ∧
    after 0x3342 (State.reset.writeV 3 0x41) (fun t => t.pc == 0x202) = true := by decide
/-- TC8, TC9. -/
theorem test_sneImm : after 0x4342 (State.reset.writeV 3 0x41) (fun t => t.pc == 0x204) = true ∧
    after 0x4342 (State.reset.writeV 3 0x42) (fun t => t.pc == 0x202) = true := by decide
/-- S5. -/
theorem test_seReg : after 0x5120 (ab 7 7) (fun t => t.pc == 0x204) = true ∧
    after 0x5120 (ab 7 8) (fun t => t.pc == 0x202) = true := by decide
/-- TC11, TC12. -/
theorem test_sneReg : after 0x9110 (ab 7 8) (fun t => t.pc == 0x202) = true ∧
    after 0x9120 (ab 7 8) (fun t => t.pc == 0x204) = true := by decide
/-- TC15. -/
theorem test_jpV0 : after 0xBFFF (State.reset.writeV 0 0xFF) (fun t => t.pc == 0x10FE) = true := by decide
/-- TA1. -/
theorem test_ldImm : after 0x6A2F (ab 0 0) (fun t => t.readV 0xA == 0x2F && t.readV 0xF == 0x77) = true := by decide
/-- TA2. -/
theorem test_addImm : after 0x7102 (ab 0xFF 0) (fun t => t.readV 1 == 0x01 && t.readV 0xF == 0x77) = true := by decide
/-- TA4. -/
theorem test_ldReg : after 0x8120 (ab 0x00 0x11) (fun t => t.readV 1 == 0x11) = true := by decide
/-- TA5. -/
theorem test_orReg : after 0x8121 (ab 0xF0 0x0F) (fun t => t.readV 1 == 0xFF && t.readV 0xF == 0x77) = true := by decide
/-- TA6. -/
theorem test_andReg : after 0x8122 (ab 0xF0 0x3C) (fun t => t.readV 1 == 0x30 && t.readV 0xF == 0x77) = true := by decide
/-- TA7. -/
theorem test_xorReg : after 0x8123 (ab 0xF0 0x3C) (fun t => t.readV 1 == 0xCC && t.readV 0xF == 0x77) = true := by decide
/-- S3, TA9. -/
theorem test_addReg_carry : after 0x8124 (ab 0xFA 0x0A) (fun t => t.readV 1 == 0x04 && t.readV 0xF == 1) = true := by decide
/-- TA14: the sum is lost. -/
theorem test_addReg_into_flag : after 0x8F24 ((ab 0 0x01).writeV 0xF 0xFF) (fun t => t.readV 0xF == 1) = true := by decide
/-- S4, TA16. -/
theorem test_subReg_borrow : after 0x8125 (ab 0x05 0x0A) (fun t => t.readV 1 == 0xFB && t.readV 0xF == 0) = true := by decide
/-- TA18. -/
theorem test_subReg_equal : after 0x8125 (ab 0x07 0x07) (fun t => t.readV 1 == 0x00 && t.readV 0xF == 1) = true := by decide
/-- TA24. -/
theorem test_shr : after 0x8106 (ab 0x05 0) (fun t => t.readV 1 == 0x02 && t.readV 0xF == 1) = true := by decide
/-- TA28. -/
theorem test_shr_source_y : after 0x8126 ((withParams false .y).writeV 2 0x03)
    (fun t => t.readV 1 == 0x01 && t.readV 0xF == 1) = true := by decide
/-- TA21. -/
theorem test_subnReg : after 0x8127 (ab 0x0A 0x05) (fun t => t.readV 1 == 0xFB && t.readV 0xF == 0) = true := by decide
/-- TA30. -/
theorem test_shl : after 0x810E (ab 0x81 0) (fun t => t.readV 1 == 0x02 && t.readV 0xF == 1) = true := by decide
/-- TA33. -/
theorem test_shl_source_y : after 0x812E ((withParams false .y).writeV 2 0xC0)
    (fun t => t.readV 1 == 0x80 && t.readV 0xF == 1) = true := by decide
/-- TA35, for every draw. -/
theorem test_rnd_mask_zero (s : State) : Completes (.rnd 1 0x00) s fun t => t.readV 1 = 0x00 := by
  refine ⟨_, rfl, ?_⟩
  show (s.v.set 1 (Config.rngByte s.draws &&& 0) (by decide))[1] = 0
  simp
/-- TM1. -/
theorem test_ldI : after 0xA123 State.reset (fun t => t.i == 0x123 && t.pc == 0x202) = true := by decide
/-- TM3. -/
theorem test_addI_wraps : after 0xF21E { State.reset.writeV 2 0x01 with i := 0xFFFF } (fun t => t.i == 0) = true := by decide
/-- TM6. -/
theorem test_ldF : after 0xF329 (State.reset.writeV 3 0x0F) (fun t => t.i == 0x4B) = true := by decide
/-- TM7. -/
theorem test_ldF_undefined : after 0xF329 { State.reset.writeV 3 0x10 with i := 0x123 }
    (fun t => t.fault == some ⟨.undefinedOperand, 0x200, 0xF329, 0x10⟩ && t.i == 0x123 && t.pc == 0x200) = true := by decide
/-- S6. -/
theorem test_ldB : after 0xF333 { State.reset.writeV 3 0xEA with i := 0x300 }
    (fun t => t.memRead 0x300 == 2 && t.memRead 0x301 == 3 && t.memRead 0x302 == 4) = true := by decide
/-- TM11: the digits wrap into the font. -/
theorem test_ldB_wraps : after 0xF333 { State.reset.writeV 3 123 with i := 0x0FFF }
    (fun t => t.memRead 0xFFF == 1 && t.memRead 0x000 == 2 && t.memRead 0x001 == 3 && t.i == 0xFFF) = true := by decide
/-- TM12. -/
theorem test_storeRegs_one : after 0xF055 { (State.reset.writeV 0 0xAB).writeV 1 0xCD with i := 0x300 }
    (fun t => t.memRead 0x300 == 0xAB && t.memRead 0x301 == 0 && t.i == 0x300) = true := by decide
/-- TM14. -/
theorem test_storeRegs_wraps : after 0xF255
    { ((State.reset.writeV 0 1).writeV 1 2).writeV 2 3 with i := 0x1FFE }
    (fun t => t.memRead 0xFFE == 1 && t.memRead 0xFFF == 2 && t.memRead 0x000 == 3 && t.i == 0x1FFE) = true := by decide
/-- TM15. -/
theorem test_loadRegs : after 0xF165 { (State.reset.memWrite 0x300 9).memWrite 0x301 8 with i := 0x300 }
    (fun t => t.readV 0 == 9 && t.readV 1 == 8 && t.readV 2 == 0 && t.i == 0x300) = true := by decide
/-- TM17. -/
theorem test_loadRegs_font : after 0xF065 State.reset (fun t => t.readV 0 == 0xF0) = true := by decide
/-- TG6: rows wrap. -/
theorem test_drw_wraps : after 0xD012
    { (((State.reset.writeV 0 62).writeV 1 31).memWrite 0x300 0xE0).memWrite 0x301 0x80 with i := 0x300 }
    (fun t => t.disp.cell 62 31 && t.disp.cell 63 31 && t.disp.cell 0 31 && t.disp.cell 62 0 && !t.disp.cell 63 0 &&
      t.readV 0xF == 0) = true := by decide
/-- TG8. -/
theorem test_drw_collision : after 0xD011
    { State.reset.memWrite 0x300 0x80 with i := 0x300, disp := State.reset.disp.toggle 0 0 }
    (fun t => !t.disp.cell 0 0 && t.readV 0xF == 1) = true := by decide
/-- TK1, TK2. -/
theorem test_skp : after 0xE59E ((State.reset.writeV 5 3).setKey 3 true) (fun t => t.pc == 0x204) = true ∧
    after 0xE59E (State.reset.writeV 5 3) (fun t => t.pc == 0x202) = true := by decide
/-- TK5. -/
theorem test_skp_undefined : after 0xE59E (State.reset.writeV 5 0x10)
    (fun t => t.fault == some ⟨.undefinedOperand, 0x200, 0xE59E, 0x10⟩) = true := by decide
/-- TK3, TK4. -/
theorem test_sknp : after 0xE5A1 (State.reset.writeV 5 3) (fun t => t.pc == 0x204) = true ∧
    after 0xE5A1 ((State.reset.writeV 5 3).setKey 3 true) (fun t => t.pc == 0x202) = true := by decide
/-- TK6. -/
theorem test_sknp_undefined : after 0xE5A1 (State.reset.writeV 5 0xFF)
    (fun t => t.fault == some ⟨.undefinedOperand, 0x200, 0xE5A1, 0xFF⟩) = true := by decide
/-- TK7, coupled. -/
theorem test_ldVxDT_coupled : after 0xF307 { withParams true .x with dt := 0x20 }
    (fun t => t.readV 3 == 0x20 && t.dt == 0x1F) = true := by decide
/-- TK8. -/
theorem test_ldVxK_holds : after 0xF20A { State.reset with pc := 0x300 } (fun t => t.pc == 0x300 && t.readV 2 == 0) = true := by
  decide
/-- TK9. -/
theorem test_ldVxK_takes_key : after 0xF20A { State.reset.setKey 7 true with pc := 0x300 }
    (fun t => t.pc == 0x302 && t.readV 2 == 7) = true := by decide
/-- TK11, TK12. -/
theorem test_ldDTVx : after 0xF415 (State.reset.writeV 4 60) (fun t => t.dt == 60) = true ∧
    after 0xF415 ((withParams true .x).writeV 4 60) (fun t => t.dt == 59) = true := by decide
/-- TK14. -/
theorem test_ldSTVx : after 0xF418 (State.reset.writeV 4 10) (fun t => t.st == 10 && t.soundOutput == 10) = true := by decide

/-! ### Fetch and faults -/

/-- One step at a pc out of range records that pc and keeps it. -/
def badPc (pc : Word) : Bool :=
  after 0x00E0 { State.reset with pc := pc } (fun t => t.fault == some ⟨.pcOutOfRange, pc, 0, pc⟩ && t.pc == pc)
/-- TY1. -/
theorem test_pc_odd : badPc 0x201 = true := by decide
/-- TY2. -/
theorem test_pc_low : badPc 0x1FE = true := by decide
/-- TY3. -/
theorem test_pc_high : badPc 0x1000 = true := by decide
/-- TY5. -/
theorem test_unknown_opcode : after 0xFFFF { withParams true .x with dt := 5 }
    (fun t => t.fault == some ⟨.unknownOpcode, 0x200, 0xFFFF, 0xFFFF⟩ && t.dt == 5 && t.faultCode == 1) = true := by decide
/-- TH1: with nothing loaded the first cycle raises UnknownOpcode. -/
theorem test_reset_first_cycle : HostInput.cycle.apply State.reset =
    State.reset.raise .unknownOpcode 0x0000 0x0000 := by decide

/-! ### Host inputs -/

/-- A state that holds an UnknownOpcode fault, as TY5 leaves it. -/
def unknownHeld : State := { State.reset with dt := 5, fault := some ⟨.unknownOpcode, 0x200, 0xFFFF, 0xFFFF⟩ }

/-- TY7. -/
theorem test_tick_while_faulted : (HostInput.tick.apply unknownHeld).dt = 4 ∧
    (HostInput.tick.apply unknownHeld).fault = unknownHeld.fault := by decide
/-- TY8. -/
theorem test_resumeSkip : (HostInput.resumeSkip.apply unknownHeld).pc = 0x202 ∧
    (HostInput.resumeSkip.apply unknownHeld).fault = none := by decide
/-- TH2. -/
theorem test_load : ∀ t, t = ((State.reset.setKey 4 true).writeV 3 9).load [0x12, 0x00] →
    t.1 = .ok ∧ t.2.memRead 0x200 = 0x12 ∧ t.2.readKey 4 = true ∧ t.2.readV 3 = 0 := by
  intro t h
  subst h
  decide
/-- TH3. -/
theorem test_load_too_large : (State.reset.load (List.replicate 3585 0)).1 = .programTooLarge := by
  rw [State.load, if_pos (by rw [List.length_replicate]; decide)]
/-- TH4, TH5. -/
theorem test_font_kept_by_load_restored_by_reset :
    ((HostInput.load [0x12, 0x00]).apply (State.reset.memWrite 0x000 0x00)).memRead 0x000 = 0x00 ∧
    (HostInput.reset.apply (State.reset.memWrite 0x000 0x00)).memRead 0x000 = 0xF0 := by decide

/-! ### Witnesses: for every obligation with hypotheses, a state and operands that meet them, clause by clause -/

/-- The reset state with the word `w` at pc. -/
def at200 (w : Nat) : State := State.reset.withFetchWord 16 w

/-- A state that holds a fault of a kind. -/
def held (kind : FaultKind) : State := State.reset.raise kind 0 0

/-- The outcome is this next state. -/
def answers (o : Host.Outcome State Fault Refusal) (t : State) : Bool :=
  match o with
  | .next u => decide (u = t)
  | .fault _ => false
  | .refused _ => false

theorem eq_of_answers {o : Host.Outcome State Fault Refusal} {t : State} (h : answers o t = true) : o = .next t := by
  cases o with
  | next u => exact congrArg _ (of_decide_eq_true h)
  | fault f => exact absurd h (by simp [answers])
  | refused r => exact absurd h (by simp [answers])

theorem witness_DecodeEncodeAgree : (Instr.skp 3 9).wellFormed true = true ∧ (Instr.seReg 1 2 0xF).wellFormed false = true := by
  decide
theorem witness_EncodeDecodeAgree : decode true 0xE39E#16 = .ok (.skp 3 9) ∧
    decode false 0x512F#16 = .ok (.seReg 1 2 0xF) := by decide
theorem witness_DecodeBytesConsumesTwo : (Instr.sknp 3 0xA).wellFormed true = true := by decide
theorem witness_StepRunsDecoded : (at200 0x6A2F).fault = none ∧ pcInRange (at200 0x6A2F).pc = true ∧
    decode (at200 0x6A2F).params.canonicalDecode (at200 0x6A2F).fetchWord = .ok (.ldImm 0xA 0x2F) := by decide
theorem witness_CycleEndDecrementsAndExports : (held .unknownOpcode).fault ≠ none ∧
    (withParams true .x).fault = none ∧ (withParams true .x).params.timerCoupled = true := by decide
/-- Odd; just below the range; just above it. -/
theorem witness_BadPcRaises : State.reset.fault = none ∧ (0xFFD#16).toNat % 2 = 1 ∧ (0x1FE#16).toNat < 0x200 ∧
    0xFFE < (0x1000#16).toNat := by decide
theorem witness_UnknownWordRaises : State.reset.fault = none ∧
    (State.reset.pc.toNat % 2 = 0 ∧ 0x200 ≤ State.reset.pc.toNat ∧ State.reset.pc.toNat ≤ 0xFFE) ∧
    decode State.reset.params.canonicalDecode State.reset.fetchWord = .error (.unknownOpcode 0x0000) := by decide
theorem witness_FaultedStateTakesNoCycle : (held .stackOverflow).fault = some ⟨.stackOverflow, 0x200, 0, 0⟩ := by decide
theorem witness_RaiseWritesOnlyFault_unknown : step State.reset = .next (State.reset.raise .unknownOpcode 0 0) :=
  eq_of_answers (by decide)
theorem witness_RaiseWritesOnlyFault_overflow : step { at200 0x2400 with sp := 16 } =
    .next ({ at200 0x2400 with sp := 16 }.raise .stackOverflow 0x2400 16) :=
  eq_of_answers (by decide)
theorem witness_RaiseWritesOnlyFault_underflow : step (at200 0x00EE) =
    .next ((at200 0x00EE).raise .stackUnderflow 0x00EE 0) :=
  eq_of_answers (by decide)
theorem witness_RaiseWritesOnlyFault_pc : step { State.reset with pc := 0x1000 } =
    .next ({ State.reset with pc := 0x1000 }.raise .pcOutOfRange 0 0x1000) :=
  eq_of_answers (by decide)
theorem witness_RaiseWritesOnlyFault_operand : step ((at200 0xF329).writeV 3 0x10) =
    .next (((at200 0xF329).writeV 3 0x10).raise .undefinedOperand 0xF329 0x10) :=
  eq_of_answers (by decide)
theorem witness_UnfaultedCycleCompletes : Inv (at200 0x2400) ∧ (at200 0x2400).fault = none := by decide
theorem witness_InvariantKeptByStep : Inv (at200 0x1300) ∧ step (at200 0x1300) =
    .next { at200 0x1300 with pc := 0x300 } := ⟨by decide, eq_of_answers (by decide)⟩
theorem witness_InvariantKeptByInputs : Inv (at200 0x2400) := by decide
theorem witness_CanonicalMemoryUnique : Memory.wf [(0x000, 0x01), (0xFFF, 0x02)] = true := by decide
theorem witness_OnlyNamedInstructionsWrite : exec (.ldDTVx 4) (State.reset.writeV 4 60) =
    .next { State.reset.writeV 4 60 with dt := 60, pc := 0x202 } := eq_of_answers (by decide)
/-- The instruction answers a next state that differs as `f` says. -/
def changes (i : Instr) (s : State) (f : State → State → Bool) : Bool :=
  match exec i s with
  | .next t => f s t
  | .fault _ => false
  | .refused _ => false

theorem witness_OnlyNamedInstructionsWrite_clauses :
    changes .cls { State.reset with disp := State.reset.disp.toggle 63 31 } (fun s t => t.disp != s.disp) = true ∧
    changes (.storeRegs 0) ((State.reset.writeV 0 1)) (fun s t => t.mem != s.mem) = true ∧
    changes (.call 0x300) State.reset (fun s t => t.sp != s.sp && t.stack != s.stack) = true ∧
    changes (.addI 1) (State.reset.writeV 1 1) (fun s t => t.i != s.i) = true ∧
    changes (.ldSTVx 1) (State.reset.writeV 1 1) (fun s t => t.st != s.st) = true := by decide
theorem witness_ReturnPopsOrUnderflows : { State.reset with sp := 1 }.sp.toNat = (0 : Fin 16).val + 1 ∧
    { State.reset with sp := 16 }.sp.toNat = (15 : Fin 16).val + 1 ∧ State.reset.sp = 0 := by decide
/-- An odd target; a target just below the range. -/
theorem witness_JumpSetsPc : State.reset.fault = none ∧ (0xFFF : Addr12).toNat % 2 = 1 ∧ (0x1FE : Addr12).toNat < 0x200 := by
  decide
/-- An odd sum; one just below the range; one just above it. -/
theorem witness_JumpWithOffset : State.reset.fault = none ∧
    ((0x200 : Addr12).toNat + ((State.reset.writeV 0 1).readV 0).toNat) % 2 = 1 ∧
    (0x100 : Addr12).toNat + ((State.reset.writeV 0 0xFE).readV 0).toNat < 0x200 ∧
    0xFFE < (0xFFE : Addr12).toNat + ((State.reset.writeV 0 2).readV 0).toNat := by decide
theorem witness_CallPushesOrOverflows : { State.reset with sp := 15 }.sp.toNat < 16 ∧
    { State.reset with sp := 16 }.sp = 16 ∧ State.reset.fault = none ∧ (0x201 : Addr12).toNat % 2 = 1 ∧
    (0x1FE : Addr12).toNat < 0x200 := by decide
theorem witness_CallThenReturnResumes : { State.reset with sp := 15 }.sp.toNat < 16 := by decide
theorem witness_RegisterSkips : (0xF : Nibble) ≠ 0 := by decide
theorem witness_AddSetsCarry : (0xE : Nibble) ≠ flagReg ∧ (1 : Nibble) ≠ 0xE ∧ (1 : Nibble) ≠ flagReg := by decide
theorem witness_SubtractReversedSetsNoBorrow : (0xE : Nibble) ≠ flagReg ∧ (1 : Nibble) ≠ 0xE ∧ (1 : Nibble) ≠ flagReg := by
  decide
theorem witness_SubtractSetsNoBorrow : (0xE : Nibble) ≠ flagReg ∧ (1 : Nibble) ≠ 0xE ∧ (1 : Nibble) ≠ flagReg := by decide
/-- The source value under each SHIFT_SOURCE, and a destination other than VF. -/
theorem witness_ShiftsPutOutBit : ((withParams false .x).writeV 1 0x81).shiftOperand 1 2 = 0x81 ∧
    ((withParams false .y).writeV 2 0x03).shiftOperand 1 2 = 0x03 ∧ (1 : Nibble) ≠ flagReg := by decide
theorem witness_RandomIsMasked : (0x0F : Byte).getLsbD 7 = false ∧ (1 : Nibble) ≠ 2 := by decide
/-- The last digit with a glyph, and the first value without one. -/
theorem witness_FontAddressOrUndefined : ((State.reset.writeV 3 0x0F).readV 3).toNat ≤ 0xF ∧
    0xF < ((State.reset.writeV 3 0x10).readV 3).toNat := by decide
/-- A canonical memory with an entry, a store that wraps, and an address outside it. -/
theorem witness_BcdStoresDigits : Memory.wf (State.reset.memWrite 0xFFF 7).mem = true ∧
    ∀ k, k < 3 → 0x002 % 4096 ≠ ({ State.reset with i := 0x0FFF }.i.toNat + k) % 4096 := by decide
theorem witness_StoreRegistersWrites : Memory.wf (State.reset.memWrite 0xFFF 7).mem = true ∧
    ∀ k, k ≤ (2 : Nibble).toNat → 0x002 % 4096 ≠ ({ State.reset with i := 0x0FFF }.i.toNat + k) % 4096 := by decide
theorem witness_StoreThenLoadRestores : Memory.wf (State.reset.memWrite 0xFFF 7).mem = true := by decide
theorem witness_StoreSeenByNextFetch : Memory.wf State.reset.mem = true ∧ (0 : Nibble).toNat + 1 ≤ (1 : Nibble).toNat ∧
    { State.reset with i := 0x202 }.i.toNat + (0 : Nibble).toNat = { State.reset with i := 0x202 }.pc.toNat + 2 := by decide

/-- One row of one pixel at (63, 31), drawn from 0x300. -/
def pixel : State :=
  { ((State.reset.writeV 0 63).writeV 1 31).memWrite 0x300 0x80 with i := 0x300 }

theorem pixel_covers : SpriteCovers pixel 0 1 1 63 31 := ⟨0, 0, by decide⟩
theorem pixel_covers_only (c : Fin 64) (r : Fin 32) : SpriteCovers pixel 0 1 1 c r → c = 63 ∧ r = 31 := by
  rintro ⟨dr, dc, h1, h2, h3, h4, h5⟩
  have e1 : (1 : Nibble).toNat = 1 := rfl
  have e2 : (pixel.readV 0).toNat = 63 := by decide
  have e3 : (pixel.readV 1).toNat = 31 := by decide
  rw [e1] at h1
  obtain rfl : dr = 0 := by omega
  have e4 : ∀ d : Fin 8, (pixel.memRead (pixel.i.toNat + 0)).getLsbD (7 - d.val) = true → d.val = 0 := by decide
  have e5 := e4 ⟨dc, h2⟩ h5
  simp only at e5
  subst e5
  omega
/-- A covered cell that was off, and an uncovered one. -/
theorem witness_DrawTogglesCoveredCells : SpriteCovers pixel 0 1 1 63 31 ∧ ¬ SpriteCovers pixel 0 1 1 0 31 ∧
    ¬ ∃ c r, SpriteCovers pixel 0 1 1 c r ∧ pixel.disp.cell c r = true := by
  refine ⟨pixel_covers, fun h => absurd (pixel_covers_only _ _ h).1 (by decide), ?_⟩
  rintro ⟨c, r, h, hd⟩
  obtain ⟨rfl, rfl⟩ := pixel_covers_only c r h
  exact absurd hd (by decide)
/-- The same draw over a cell that was on. -/
theorem witness_DrawTogglesCoveredCells_collision : ∃ c r,
    SpriteCovers { pixel with disp := pixel.disp.toggle 63 31 } 0 1 1 c r ∧
      { pixel with disp := pixel.disp.toggle 63 31 }.disp.cell c r = true :=
  ⟨63, 31, ⟨0, 0, by decide⟩, by decide⟩
theorem witness_DrawTwiceRestores : (0 : Nibble) ≠ flagReg ∧ (0xE : Nibble) ≠ flagReg := by decide
theorem witness_KeySkips : ((State.reset.writeV 5 0x0F).readV 5).toNat = (0xF : Nibble).toNat ∧
    0xF < ((State.reset.writeV 5 0x10).readV 5).toNat := by decide
theorem witness_TimerMovesInCoupledCycle : (at200 0xF415).fault = none ∧ pcInRange (at200 0xF415).pc = true ∧
    decode (at200 0xF415).params.canonicalDecode (at200 0xF415).fetchWord = .ok (.ldDTVx 4) ∧
    decode (at200 0xF407).params.canonicalDecode (at200 0xF407).fetchWord = .ok (.ldVxDT 4) := by decide
theorem witness_WaitForKeyTakesPressedKey : (∀ k, State.reset.readKey k = false) ∧
    (State.reset.setKey 0xF true).readKey 0xF = true := by decide
theorem witness_HeldCycleRunsTimers : (at200 0xF20A).fault = none ∧ pcInRange (at200 0xF20A).pc = true ∧
    decode (at200 0xF20A).params.canonicalDecode (at200 0xF20A).fetchWord = .ok (.ldVxK 2) ∧
    ∀ k, (at200 0xF20A).readKey k = false := by decide
/-- The largest image that loads, and the smallest that does not. -/
theorem witness_LoadReloadsAndCopies : Memory.wf State.reset.mem = true ∧ (List.replicate 3584 (0 : Byte)).length ≤ 3584 ∧
    3584 < (List.replicate 3585 (0 : Byte)).length := by
  simp only [List.length_replicate]
  decide
theorem witness_ResumeSkipClearsUnknownOpcode : (held .unknownOpcode).fault = some ⟨.unknownOpcode, 0x200, 0, 0⟩ ∧
    (held .pcOutOfRange).fault = some ⟨.pcOutOfRange, 0x200, 0, 0⟩ ∧ FaultKind.pcOutOfRange ≠ .unknownOpcode ∧
    State.reset.fault = none := by decide
theorem witness_FaultIsSticky : (held .stackUnderflow).fault = some ⟨.stackUnderflow, 0x200, 0, 0⟩ := by decide
theorem witness_ParkedStaysParked : Parked (at200 0x1200) := by decide

end Sys2Proof.Tests
end

section
/-! SUPPORT. What an instruction can do, once: every next state of `exec`, by the kind of state it writes
(10_state.md R17 to R30; 40_cycle.md R68, R72). -/

namespace Sys2Proof.Machine

/-- Why a handler raises, with the data it records: CALL on a full stack, RET on an empty one, a digit or key index
above 0xF (41_control.md R77, R79; 43_index_memory.md R100; 45_keypad_timers.md R107, R108). -/
inductive RaiseCause (s : State) : Instr → FaultKind → Word → Prop
  | stackUnderflow (hsp : s.sp = 0) : RaiseCause s .ret .stackUnderflow (zextByte s.sp)
  | stackOverflow (nnn : Addr12) (hsp : s.sp = 16) : RaiseCause s (.call nnn) .stackOverflow (zextByte s.sp)
  | undefinedOperand {i : Instr} (x : Nibble) (hi : i = .ldF x ∨ ∃ y, i = .skp x y ∨ i = .sknp x y)
      (hx : 0xF < (s.readV x).toNat) : RaiseCause s i .undefinedOperand (zextByte (s.readV x))

/-- No handler raises PcOutOfRange: only the fetch does (40_cycle.md R66). -/
theorem RaiseCause.ne_pcOutOfRange {s : State} {i : Instr} {k : FaultKind} {info : Word}
    (h : RaiseCause s i k info) : k ≠ .pcOutOfRange := by
  cases h <;> nofun

/-- The next states `exec` can answer, one constructor per kind of write, each with the instructions that make it.
A pc left to `advance` moves by at most 4. -/
inductive ExecEffect (s : State) : Instr → State → Prop
  | raise {i : Instr} {k : FaultKind} {info : Word} (cause : RaiseCause s i k info) :
      ExecEffect s i (s.raise k (encode i) info)
  | registers {i : Instr} (v : Vector Byte 16) (draws : Nat) (a : Advance) :
      ExecEffect s i ({ s with v := v, draws := draws }.advance a)
  | display {i : Instr} (d : Display) (v : Vector Byte 16) (hi : i = .cls ∨ ∃ x y n, i = .drw x y n) :
      ExecEffect s i ({ s with disp := d, v := v }.advance .next)
  | memory {i : Instr} (m : Memory) (hi : ∃ x, i = .ldB x ∨ i = .storeRegs x)
      (hm : Memory.wf s.mem = true → Memory.wf m = true) : ExecEffect s i ({ s with mem := m }.advance .next)
  | index {i : Instr} (w : Word) (hi : (∃ nnn, i = .ldI nnn) ∨ ∃ x, i = .addI x ∨ i = .ldF x) :
      ExecEffect s i ({ s with i := w }.advance .next)
  | delayTimer (x : Nibble) : ExecEffect s (.ldDTVx x) ({ s with dt := s.readV x }.advance .next)
  | soundTimer (x : Nibble) : ExecEffect s (.ldSTVx x) ({ s with st := s.readV x }.advance .next)
  | jump {i : Instr} (target : Word) (hi : ∃ nnn, i = .jp nnn ∨ i = .jpV0 nnn) (hpc : target.toNat ≤ 0x10FE) :
      ExecEffect s i { s with pc := target }
  | call (nnn : Addr12) (hsp : s.sp.toNat < 16) :
      ExecEffect s (.call nnn) { s.push s.pc hsp with pc := zextAddr nnn }
  | ret (hsp : s.sp ≠ 0) (htop : s.sp.toNat - 1 < 16) :
      ExecEffect s .ret ({ s with sp := s.sp - 1, pc := s.stack[s.sp.toNat - 1] }.advance .next)

/-! ### The handlers, by what they write -/

theorem zextAddr_toNat (nnn : Addr12) : (zextAddr nnn).toNat = nnn.toNat := by
  simp only [zextAddr, BitVec.toNat_setWidth]; omega

theorem zextByte_toNat (b : Byte) : (zextByte b).toNat = b.toNat := by
  simp only [zextByte, BitVec.toNat_setWidth]; omega

/-- The largest target of JP V0 is 0xFFF + 0xFF, so the sum does not wrap (41_control.md R84). -/
theorem jpV0_target_le (nnn : Addr12) (b : Byte) : (zextAddr nnn + zextByte b).toNat ≤ 0x10FE := by
  rw [BitVec.toNat_add, zextAddr_toNat, zextByte_toNat]; omega

section
variable {s t : State} {i : Instr}

/-- A handler that completes with general registers and the draw counter alone written. -/
theorem ExecEffect.of_registers {a : Advance} {u : State} (h : complete a u = .next t)
    (hu : u = { s with v := u.v, draws := u.draws }) : ExecEffect s i t := by
  rw [complete_next.mp h, hu]
  exact .registers _ _ _

/-- A handler that looks up its operand raises above 0xF and goes on with the index otherwise. -/
theorem ExecEffect.of_indexOf {x : Nibble} {f : Nibble → Host.Outcome State Fault Refusal}
    (hi : i = .ldF x ∨ ∃ y, i = .skp x y ∨ i = .sknp x y)
    (h : (match indexOf (s.readV x) with
      | none => raised .undefinedOperand (encode i) (zextByte (s.readV x)) s
      | some k => f k) = .next t)
    (hf : ∀ k, f k = .next t → ExecEffect s i t) : ExecEffect s i t := by
  split at h
  · next hx =>
    rw [raised_next.mp h]
    exact .raise (.undefinedOperand x hi (indexOf_eq_none.mp hx))
  · exact hf _ h

theorem execLdVxK_effect {x : Nibble} (h : execLdVxK x s = .next t) : ExecEffect s (.ldVxK x) t := by
  unfold execLdVxK at h
  split at h
  · exact .of_registers h rfl
  · exact .of_registers h rfl

theorem execLdB_effect {x : Nibble} (h : execLdB x s = .next t) : ExecEffect s (.ldB x) t := by
  rw [complete_next.mp h]
  exact .memory _ ⟨x, .inl rfl⟩ fun hw => State.memWrite_wf (State.memWrite_wf (State.memWrite_wf hw _ _) _ _) _ _

theorem execStoreRegs_effect {x : Nibble} (h : execStoreRegs x s = .next t) : ExecEffect s (.storeRegs x) t := by
  rw [complete_next.mp h, State.storeRegs_frame]
  exact .memory _ ⟨x, .inr rfl⟩ fun hw => State.storeRegs_wf hw _

theorem execLoadRegs_effect {x : Nibble} (h : execLoadRegs x s = .next t) : ExecEffect s (.loadRegs x) t :=
  .of_registers h (by rw [s.loadRegs_frame])

theorem execRet_effect (h : execRet s = .next t) : ExecEffect s .ret t := by
  unfold execRet at h
  split at h
  · next h0 => rw [raised_next.mp h]; exact .raise (.stackUnderflow h0)
  · next h0 =>
    split at h
    · next htop => rw [complete_next.mp h]; exact .ret h0 htop
    · cases h

theorem execCall_effect {nnn : Addr12} (h : execCall nnn s = .next t) : ExecEffect s (.call nnn) t := by
  unfold execCall at h
  split at h
  · next h16 => rw [raised_next.mp h]; exact .raise (.stackOverflow nnn h16)
  · split at h
    · next hsp => rw [complete_next.mp h]; exact .call nnn hsp
    · cases h

/-- Everything an instruction that answers a next state can have done. -/
theorem exec_effect (h : exec i s = .next t) : ExecEffect s i t := by
  cases i with
  | seImm | sneImm | seReg | sneReg | ldImm | addImm | ldReg | orReg | andReg | xorReg | addReg | subReg | shr
  | subnReg | shl | rnd | ldVxDT => exact .of_registers h rfl
  | ldVxK => exact execLdVxK_effect h
  | loadRegs => exact execLoadRegs_effect h
  | skp x y => exact .of_indexOf (.inr ⟨y, .inl rfl⟩) h fun _ hk => .of_registers hk rfl
  | sknp x y => exact .of_indexOf (.inr ⟨y, .inr rfl⟩) h fun _ hk => .of_registers hk rfl
  | cls => rw [complete_next.mp h]; exact .display _ _ (.inl rfl)
  | drw x y n => rw [complete_next.mp h]; exact .display _ _ (.inr ⟨x, y, n, rfl⟩)
  | ldB => exact execLdB_effect h
  | storeRegs => exact execStoreRegs_effect h
  | ldI nnn => rw [complete_next.mp h]; exact .index _ (.inl ⟨nnn, rfl⟩)
  | addI x => rw [complete_next.mp h]; exact .index _ (.inr ⟨x, .inl rfl⟩)
  | ldF x =>
    refine .of_indexOf (.inl rfl) h fun _ hk => ?_
    rw [complete_next.mp hk]
    exact .index _ (.inr ⟨x, .inr rfl⟩)
  | ldDTVx x => rw [complete_next.mp h]; exact .delayTimer x
  | ldSTVx x => rw [complete_next.mp h]; exact .soundTimer x
  | jp nnn =>
    rw [complete_next.mp h]
    exact .jump _ ⟨nnn, .inl rfl⟩ (by rw [zextAddr_toNat]; omega)
  | jpV0 nnn => rw [complete_next.mp h]; exact .jump _ ⟨nnn, .inr rfl⟩ (jpV0_target_le nnn _)
  | call => exact execCall_effect h
  | ret => exact execRet_effect h

end

/-- Settles O20: by the kind of effect, whose constructor names the instructions that have it. -/
theorem onlyNamedInstructionsWrite : Obligations.OnlyNamedInstructionsWrite := by
  intro i s t h
  cases exec_effect h with
  | display _ _ hi | memory _ hi | index _ hi => simp [hi]
  | raise | registers | delayTimer | soundTimer | jump | call | ret => simp

end Sys2Proof.Machine
end

section
/-! SUPPORT. The invariant of every run: what an instruction and the end of a cycle keep of it. -/

namespace Sys2Proof.Machine

/-- The clauses of `Inv` that an instruction keeps by itself. The other two, on the display's snapshot and the fault
register, are settled at the end of the cycle (40_cycle.md R71, R72). -/
structure Sound (s : State) : Prop where
  mem : Memory.wf s.mem = true
  sp : s.sp.toNat ≤ 16
  stack : StackOk s
  pc : s.pc.toNat ≤ 0x10FE

section
variable {s t : State}

theorem inv_iff : Inv s ↔ Sound s ∧ s.dispExport = s.disp ∧ FaultOk s = true :=
  ⟨fun ⟨hm, hsp, hst, hpc, hx, hf⟩ => ⟨⟨hm, hsp, hst, hpc⟩, hx, hf⟩,
    fun ⟨⟨hm, hsp, hst, hpc⟩, hx, hf⟩ => ⟨hm, hsp, hst, hpc, hx, hf⟩⟩

/-- `Sound` reads memory, sp, the stack and pc alone. -/
theorem Sound.congr (h : Sound s) (hm : t.mem = s.mem) (hsp : t.sp = s.sp) (hst : t.stack = s.stack)
    (hpc : t.pc = s.pc) : Sound t :=
  ⟨hm ▸ h.mem, hsp ▸ h.sp, fun j hj => by rw [hst]; exact h.stack j (hsp ▸ hj), hpc ▸ h.pc⟩

/-- From a fetched pc the advance reaches at most 0xFFE + 4 (40_cycle.md R68). -/
theorem Sound.advance {a : Advance} (h : Sound s) (hpc : pcInRange s.pc = true) : Sound (s.advance a) := by
  obtain ⟨-, -, hle⟩ := (pcInRange_iff _).mp hpc
  cases a with
  | next => exact ⟨h.mem, h.sp, h.stack, by rw [State.advance_next_pc]; bv_omega⟩
  | skip => exact ⟨h.mem, h.sp, h.stack, by rw [State.advance_skip_pc]; bv_omega⟩
  | jumped => exact h
  | hold => exact h

/-- CALL pushes the pc of a fetched instruction (41_control.md R79). -/
theorem stackOk_push (h : StackOk s) (hpc : pcInRange s.pc = true) (hsp : s.sp.toNat < 16) :
    StackOk (s.push s.pc hsp) := by
  intro j hj
  by_cases htop : s.sp.toNat = j.val
  · simp [htop, hpc]
  · have hlt : j.val < s.sp.toNat := by
      rw [State.push_sp] at hj
      bv_omega
    simpa [Vector.getElem_set, htop] using h j hlt

/-- RET pops an entry of the stack, so pc is again that of a fetched CALL (41_control.md R77). -/
theorem Sound.pop (h : Sound s) (hsp : s.sp ≠ 0) (htop : s.sp.toNat - 1 < 16) :
    Sound ({ s with sp := s.sp - 1, pc := s.stack[s.sp.toNat - 1] }.advance .next) := by
  have hdec : (s.sp - 1).toNat + 1 = s.sp.toNat := by bv_omega
  have hpop : pcInRange s.stack[s.sp.toNat - 1] = true := h.stack ⟨s.sp.toNat - 1, htop⟩ (by simp only; omega)
  have hle := ((pcInRange_iff _).mp hpop).2.2
  have hsp16 := h.sp
  refine Sound.advance ⟨h.mem, ?_, fun j hj => h.stack j ?_, ?_⟩ hpop
  · simp only; omega
  · simp only at hj; omega
  · simp only; omega

/-- An instruction executed at a fetched pc keeps the clauses it can write. -/
theorem exec_sound {i : Instr} (hs : Sound s) (hpc : pcInRange s.pc = true) (h : exec i s = .next t) : Sound t := by
  cases exec_effect h with
  | raise => exact hs.congr rfl rfl rfl rfl
  | registers | display | index | delayTimer | soundTimer => exact Sound.advance (hs.congr rfl rfl rfl rfl) hpc
  | memory m _ hm => exact Sound.advance ⟨hm hs.mem, hs.sp, hs.stack, hs.pc⟩ hpc
  | jump target _ hle => exact ⟨hs.mem, hs.sp, hs.stack, hle⟩
  | call nnn hsp =>
    refine ⟨hs.mem, ?_, stackOk_push hs.stack hpc hsp, ?_⟩
    · simp only [State.push_sp]; bv_omega
    · simp only [zextAddr_toNat]; omega
  | ret hsp htop => exact hs.pop hsp htop

/-- A handler that ends with a fault held has raised, and has done nothing else (40_cycle.md R72). -/
theorem exec_raise {i : Instr} (hf : s.fault = none) (h : exec i s = .next t) (ht : t.fault.isSome = true) :
    ∃ k info, RaiseCause s i k info ∧ t = s.raise k (encode i) info := by
  cases exec_effect h with
  | raise cause => exact ⟨_, _, cause, rfl⟩
  | registers | display | memory | index | delayTimer | soundTimer | jump | call | ret => simp [hf] at ht

/-- A raise keeps the invariant when the kind fits the fetch check (60_exceptions.md R119, R121). -/
theorem inv_raise {k : FaultKind} (hs : Inv s) (hk : k = .pcOutOfRange ↔ pcInRange s.pc = false) (w info : Word) :
    Inv (s.raise k w info) := by
  obtain ⟨hsound, hdisp, -⟩ := inv_iff.mp hs
  refine inv_iff.mpr ⟨hsound.congr rfl rfl rfl rfl, hdisp, ?_⟩
  cases hp : pcInRange s.pc <;> simp [FaultOk, hk, hp]

/-- The end of a cycle that did not raise establishes the invariant: it takes the display's snapshot
(40_cycle.md R71). -/
theorem inv_endCycle (hs : Sound s) (hf : s.fault = none) : Inv s.endCycle :=
  inv_iff.mpr ⟨hs.congr s.endCycle_mem s.endCycle_sp s.endCycle_stack s.endCycle_pc,
    s.endCycle_dispExport.trans s.endCycle_disp.symm, by simp [FaultOk, hf]⟩

end

/-- Settles O15: a step raises at the fetch, raises at the decoder, raises in the handler, or runs the handler and the
end of the cycle. -/
theorem invariantKeptByStep : Obligations.InvariantKeptByStep := by
  intro s t hs h
  obtain ⟨hf, ⟨hbad, rfl⟩ | ⟨hpc, ⟨-, -, rfl⟩ | ⟨i, -, ⟨hexec, ht⟩ | ⟨u, hexec, hu, rfl⟩⟩⟩⟩ := step_cases h
  · exact inv_raise hs (by simp [hbad]) _ _
  · exact inv_raise hs (by simp [hpc]) _ _
  · obtain ⟨k, info, cause, rfl⟩ := exec_raise hf hexec ht
    exact inv_raise hs (by simp [hpc, cause.ne_pcOutOfRange]) _ _
  · exact inv_endCycle (exec_sound (inv_iff.mp hs).1 hpc hexec) hu

/-- Settles O17: memory lists nothing, the stack is empty, no fault is held and both displays are blank. -/
theorem invariantAtReset : Obligations.InvariantAtReset :=
  ⟨State.reset_wf, Nat.zero_le _, fun _ hj => absurd hj (Nat.not_lt_zero _), by decide, rfl, rfl⟩

/-! ### The values at reset (10_state.md R32, R33) -/

/-- Glyph d of a font occupies bytes 5d to 5d + 4 (10_state.md R32). -/
theorem fontByte_glyph (f : Font) (d : Fin 16) (k : Fin 5) : fontByte f (5 * d.val + k.val) = f[d][k] := by
  have hlt : 5 * d.val + k.val < 80 := by omega
  have hdiv : (5 * d.val + k.val) / 5 = d.val := by omega
  have hmod : (5 * d.val + k.val) % 5 = k.val := by omega
  simp [fontByte, hlt, hdiv, hmod]

theorem fontByte_beyond (f : Font) {a : Nat} (ha : 80 ≤ a) : fontByte f a = 0x00 :=
  dif_neg (Nat.not_lt.mpr ha)

/-- Memory at reset reads as the default font and zeros (10_state.md R33). -/
theorem State.reset_memRead {a : Nat} (ha : a < 4096) : State.reset.memRead a = fontByte defaultFont a :=
  congrArg (fontByte defaultFont) (Nat.mod_eq_of_lt ha)

/-- Settles O18: memory by the reset contents of its addresses, every other piece by its field of `State.reset`. -/
theorem resetValues : Obligations.ResetValues := by
  refine ⟨fun d k => ?glyph, fun a hlo hhi => ?zeros, fun r => ?registers, rfl, rfl, rfl, fun j => ?stack, rfl, rfl,
    blankDisplay_cell, fun k => ?keys, rfl⟩
  case glyph => rw [State.reset_memRead (by omega), fontByte_glyph]
  case zeros => rw [State.reset_memRead (by omega), fontByte_beyond _ hlo]
  case registers => simp [State.readV, State.reset]
  case stack => simp [State.reset]
  case keys => simp [State.readKey, State.reset]

end Sys2Proof.Machine
end

section
/-! SUPPORT. Memory as the instructions see it: the fetched word, the extensionality of the canonical form, and a store
over the next instruction (20_memory.md R34 to R39, R46). -/

namespace Sys2Proof.Machine

/-! ### The fetched word -/

/-- Bits 15..8 and bits 7..0 of a word as arithmetic (20_memory.md R38). -/
theorem wordOfBytes_toNat (hi lo : Byte) : (wordOfBytes hi lo).toNat = 256 * hi.toNat + lo.toNat := by
  rw [wordOfBytes, BitVec.toNat_append, ← Nat.shiftLeft_add_eq_or_of_lt lo.isLt, Nat.shiftLeft_eq, Nat.mul_comm]

/-- Settles O9: the fetch puts the two bytes together with the one at pc on top. -/
theorem fetchIsBigEndian : Obligations.FetchIsBigEndian := fun _ => wordOfBytes_toNat _ _

/-! ### The canonical form of a memory -/

theorem Memory.wfFrom_cons_iff {lo a : Nat} {b : Byte} {m : Memory} :
    Memory.wfFrom lo ((a, b) :: m) = true ↔ lo ≤ a ∧ a < 4096 ∧ b ≠ resetByte a ∧ Memory.wfFrom (a + 1) m = true := by
  simp [Memory.wfFrom, and_assoc]

/-- A canonical memory reads other than unlisted at its first entry, so no memory that lists only later addresses
reads the same there. -/
theorem Memory.read_head_ne {lo lo' a : Nat} {b : Byte} {m m' : Memory} (h : Memory.wfFrom lo ((a, b) :: m) = true)
    (h' : Memory.wfFrom lo' m' = true) (hlt : a < lo') : Memory.read ((a, b) :: m) a ≠ Memory.read m' a := by
  obtain ⟨-, -, hb, -⟩ := Memory.wfFrom_cons_iff.mp h
  rwa [Memory.read_cons, if_pos rfl, Memory.read_of_lt h' hlt]

/-- Tails of canonical memories with the same head read the same where the whole memories do. -/
theorem Memory.read_tail_eq {a : Nat} {b : Byte} {m m' : Memory} (h : Memory.wfFrom (a + 1) m = true)
    (h' : Memory.wfFrom (a + 1) m' = true) {c : Nat}
    (hc : Memory.read ((a, b) :: m) c = Memory.read ((a, b) :: m') c) : Memory.read m c = Memory.read m' c := by
  by_cases e : c = a
  · rw [Memory.read_of_lt h (by omega), Memory.read_of_lt h' (by omega)]
  · rwa [Memory.read_cons, Memory.read_cons, if_neg e, if_neg e] at hc

theorem Memory.wfFrom_head {lo a : Nat} {b : Byte} {m : Memory} (h : Memory.wfFrom lo ((a, b) :: m) = true) :
    Memory.wfFrom a ((a, b) :: m) = true :=
  Memory.wfFrom_cons_iff.mpr ⟨Nat.le_refl a, (Memory.wfFrom_cons_iff.mp h).2⟩

/-- If two canonical memories read the same at the first address of one, the other's first address is no later. -/
theorem Memory.head_le_of_read_eq {lo lo' a a' : Nat} {b b' : Byte} {m m' : Memory}
    (h : Memory.wfFrom lo ((a, b) :: m) = true) (h' : Memory.wfFrom lo' ((a', b') :: m') = true)
    (hr : Memory.read ((a, b) :: m) a = Memory.read ((a', b') :: m') a) : a' ≤ a :=
  Nat.le_of_not_lt fun hlt => Memory.read_head_ne h (Memory.wfFrom_head h') hlt hr

/-- The canonical form is extensional: the first entries sit at the same address, since one in front would be read by
one memory alone, and the tails follow. -/
theorem Memory.eq_of_read_eq {lo lo' : Nat} {m m' : Memory} (h : Memory.wfFrom lo m = true)
    (h' : Memory.wfFrom lo' m' = true) (hr : ∀ a, a < 4096 → Memory.read m a = Memory.read m' a) : m = m' := by
  induction m generalizing lo lo' m' with
  | nil =>
    cases m' with
    | nil => rfl
    | cons c' m' =>
      obtain ⟨-, ha', -, -⟩ := Memory.wfFrom_cons_iff.mp h'
      exact absurd (hr _ ha').symm (Memory.read_head_ne (m' := []) h' rfl (Nat.lt_succ_self _))
  | cons c m ih =>
    obtain ⟨a, b⟩ := c
    obtain ⟨-, ha, -, htail⟩ := Memory.wfFrom_cons_iff.mp h
    cases m' with
    | nil => exact absurd (hr a ha) (Memory.read_head_ne (m' := []) h rfl (Nat.lt_succ_self _))
    | cons c' m' =>
      obtain ⟨a', b'⟩ := c'
      obtain ⟨-, ha', -, htail'⟩ := Memory.wfFrom_cons_iff.mp h'
      obtain rfl : a = a' :=
        Nat.le_antisymm (Memory.head_le_of_read_eq h' h (hr a' ha').symm) (Memory.head_le_of_read_eq h h' (hr a ha))
      obtain rfl : b = b' := by simpa [Memory.read_cons] using hr a ha
      rw [ih htail htail' fun c hc => Memory.read_tail_eq htail htail' (hr c hc)]

/-- Settles O19: by induction on the lists, comparing the addresses of their first entries. -/
theorem canonicalMemoryUnique : Obligations.CanonicalMemoryUnique :=
  fun _ _ h h' hr => Memory.eq_of_read_eq h h' hr

/-! ### A store over the next instruction -/

theorem exec_storeRegs (x : Nibble) (s : State) :
    exec (.storeRegs x) s = .next ((s.storeRegs (x.toNat + 1)).advance .next) := rfl

/-- A store of registers leaves pc to the advance. -/
theorem State.storeRegs_pc (s : State) (n : Nat) : (s.storeRegs n).pc = s.pc := by
  rw [State.storeRegs_frame]

/-- After a store of n registers, V[k] is read at every address congruent to I + k modulo 4096 (20_memory.md R40). -/
theorem State.memRead_storeRegs_at {s : State} (h : Memory.wf s.mem = true) {n : Nat} (hn : n ≤ 16) {k : Nibble}
    (hk : k.toNat < n) {a : Nat} (ha : a % 4096 = (s.i.toNat + k.toNat) % 4096) :
    (s.storeRegs n).memRead a = s.readV k := by
  obtain ⟨stored, -⟩ := State.memRead_storeRegs h hn
  rw [← State.memRead_mod, ha, State.memRead_mod, stored _ hk, BitVec.ofNat_toNat, BitVec.setWidth_eq]

/-- Settles O43: the next pc and the one after it are congruent to I + k and I + k + 1, also where pc wraps. -/
theorem storeSeenByNextFetch : Obligations.StoreSeenByNextFetch := by
  intro x k s hwf hkx hik
  have hsucc : (k + 1).toNat = k.toNat + 1 := by bv_omega
  have hpc : (s.pc + 2).toNat % 4096 = (s.i.toNat + k.toNat) % 4096 := by bv_omega
  refine ⟨_, exec_storeRegs x s, ?_⟩
  simp only [State.fetchWord, State.memRead_advance, State.advance_next_pc, State.storeRegs_pc]
  rw [State.memRead_storeRegs_at hwf (by omega) (k := k) (by omega) hpc,
    State.memRead_storeRegs_at hwf (by omega) (k := k + 1) (by omega) (by omega)]

end Sys2Proof.Machine
end


section
/-! SUPPORT. The decoder, the encoder and the opcode map agree: what `decode` answers on a word, once, by the fields of
the word, and the statements on encodings from it (30_encoding.md R49 to R63). -/

namespace Sys2Proof

/-! ### A word is packed from the fields that select its instruction (R50, R51) -/

section
variable {w : Word} {o n : Nibble} {kk : Byte}

theorem packAddr_of_op (ho : fieldOp w = o) : packAddr o (fieldNNN w) = w := ho ▸ packAddr_fields w

theorem packByte_of_op (ho : fieldOp w = o) : packByte o (fieldX w) (fieldKK w) = w := ho ▸ packByte_fields w

theorem packByte_of_op_kk (ho : fieldOp w = o) (hkk : fieldKK w = kk) : packByte o (fieldX w) kk = w :=
  hkk ▸ packByte_of_op ho

theorem packNibbles_of_op (ho : fieldOp w = o) : packNibbles o (fieldX w) (fieldY w) (fieldN w) = w :=
  ho ▸ packNibbles_fields w

theorem packNibbles_of_op_n (ho : fieldOp w = o) (hn : fieldN w = n) : packNibbles o (fieldX w) (fieldY w) n = w :=
  hn ▸ packNibbles_of_op ho

end

/-! ### The illegal words by their fields (R61) -/

/-- R61's first list: the words illegal in both modes. -/
def IllegalInDoc (w : Word) : Prop :=
  (fieldOp w = 0x0#4 ∧ w ≠ 0x00E0#16 ∧ w ≠ 0x00EE#16) ∨
  (fieldOp w = 0x8#4 ∧ fieldN w ∈ [0x8#4, 0x9#4, 0xA#4, 0xB#4, 0xC#4, 0xD#4, 0xF#4]) ∨
  (fieldOp w = 0xE#4 ∧ fieldN w ≠ 0x1#4 ∧ fieldN w ≠ 0xE#4) ∨
  (fieldOp w = 0xF#4 ∧
    fieldKK w ∉ [0x07#8, 0x0A#8, 0x15#8, 0x18#8, 0x1E#8, 0x29#8, 0x33#8, 0x55#8, 0x65#8])

/-- R61's second list: the words that canonical mode adds. -/
def IllegalAddedByCanonical (w : Word) : Prop :=
  ((fieldOp w = 0x5#4 ∨ fieldOp w = 0x9#4) ∧ fieldN w ≠ 0x0#4) ∨
  (fieldOp w = 0xE#4 ∧ fieldN w = 0xE#4 ∧ fieldY w ≠ 0x9#4) ∨
  (fieldOp w = 0xE#4 ∧ fieldN w = 0x1#4 ∧ fieldY w ≠ 0xA#4)

/-- The illegal words of a mode (the argument is CANONICAL_DECODE). -/
def Illegal (c : Bool) (w : Word) : Prop := IllegalInDoc w ∨ c = true ∧ IllegalAddedByCanonical w

theorem illegal_false {w : Word} : Illegal false w ↔ IllegalInDoc w := by simp [Illegal]

theorem illegal_true {w : Word} : Illegal true w ↔ Illegal false w ∨ IllegalAddedByCanonical w := by simp [Illegal]

section
variable {c : Bool} {w : Word}

theorem illegal_op0 (hop : fieldOp w = 0x0#4) : Illegal c w ↔ w ≠ 0x00E0#16 ∧ w ≠ 0x00EE#16 := by
  simp [Illegal, IllegalInDoc, IllegalAddedByCanonical, hop]

/-- Outside six families every word is legal (R58). -/
theorem not_illegal_of_op (hop : fieldOp w ∉ [0x0#4, 0x5#4, 0x8#4, 0x9#4, 0xE#4, 0xF#4]) : ¬ Illegal c w := by
  simp only [List.mem_cons, List.not_mem_nil, or_false, not_or] at hop
  simp [Illegal, IllegalInDoc, IllegalAddedByCanonical, hop]

theorem illegal_op59 (hop : fieldOp w = 0x5#4 ∨ fieldOp w = 0x9#4) :
    Illegal c w ↔ c = true ∧ fieldN w ≠ 0x0#4 := by
  rcases hop with hop | hop <;> simp [Illegal, IllegalInDoc, IllegalAddedByCanonical, hop]

/-- The trailing nibbles of R61's list for family 8 are those outside R55's nine. -/
theorem mem_illegal_n8_iff : ∀ n : Nibble, n ∈ [0x8#4, 0x9#4, 0xA#4, 0xB#4, 0xC#4, 0xD#4, 0xF#4] ↔
    n ∉ [0x0#4, 0x1#4, 0x2#4, 0x3#4, 0x4#4, 0x5#4, 0x6#4, 0x7#4, 0xE#4] := by decide

theorem illegal_op8 (hop : fieldOp w = 0x8#4) :
    Illegal c w ↔ fieldN w ∉ [0x0#4, 0x1#4, 0x2#4, 0x3#4, 0x4#4, 0x5#4, 0x6#4, 0x7#4, 0xE#4] := by
  rw [← mem_illegal_n8_iff]
  simp [Illegal, IllegalInDoc, IllegalAddedByCanonical, hop]

theorem illegal_opE (hop : fieldOp w = 0xE#4) (hnE : fieldN w ≠ 0xE#4) (hn1 : fieldN w ≠ 0x1#4) : Illegal c w :=
  .inl (.inr (.inr (.inl ⟨hop, hn1, hnE⟩)))

theorem illegal_opE_nE (hop : fieldOp w = 0xE#4) (hn : fieldN w = 0xE#4) :
    Illegal c w ↔ c = true ∧ fieldY w ≠ 0x9#4 := by
  simp [Illegal, IllegalInDoc, IllegalAddedByCanonical, hop, hn]

theorem illegal_opE_n1 (hop : fieldOp w = 0xE#4) (hn : fieldN w = 0x1#4) :
    Illegal c w ↔ c = true ∧ fieldY w ≠ 0xA#4 := by
  simp [Illegal, IllegalInDoc, IllegalAddedByCanonical, hop, hn]

theorem illegal_opF (hop : fieldOp w = 0xF#4) : Illegal c w ↔
    fieldKK w ∉ [0x07#8, 0x0A#8, 0x15#8, 0x18#8, 0x1E#8, 0x29#8, 0x33#8, 0x55#8, 0x65#8] := by
  simp [Illegal, IllegalInDoc, IllegalAddedByCanonical, hop]

end

/-! ### What the decoder answers -/

/-- The two answers of the decoder on a word: a well-formed instruction with that word, on a legal word, or Unknown with
the word, on an illegal one (R61, R63). -/
inductive Verdict (c : Bool) (w : Word) : Except DecodeError Instr → Prop
  | ok {i : Instr} (word : encode i = w) (wf : i.wellFormed c = true) (legal : ¬ Illegal c w) : Verdict c w (.ok i)
  | unknown (illegal : Illegal c w) : Verdict c w (.error (.unknownOpcode w))

section
variable {c : Bool} {w : Word}

/-- The check of R60, on a nibble `a` that canonical mode requires to be `b`. -/
theorem check_passes_iff {a b : Nibble} : (!c || a == b) = true ↔ ¬ (c = true ∧ a ≠ b) := by
  cases c <;> simp

/-- The answer for the four instructions that canonical mode checks (R60). -/
theorem Verdict.of_check {i : Instr} {a b : Nibble} (word : encode i = w) (wf : i.wellFormed c = (!c || a == b))
    (illegal : Illegal c w ↔ c = true ∧ a ≠ b) :
    Verdict c w (if c = true ∧ a ≠ b then .error (.unknownOpcode w) else .ok i) := by
  split
  · next h => exact .unknown (illegal.mpr h)
  · next h => exact .ok word (wf.trans (check_passes_iff.mpr h)) (mt illegal.mp h)

theorem decodeFamily0_verdict (hop : fieldOp w = 0x0#4) : Verdict c w (decodeFamily0 w) := by
  unfold decodeFamily0
  split
  · next hw => exact .ok hw.symm rfl (by rw [illegal_op0 hop, hw]; decide)
  · next hcls =>
    split
    · next hw => exact .ok hw.symm rfl (by rw [illegal_op0 hop, hw]; decide)
    · next hret => exact .unknown ((illegal_op0 hop).mpr ⟨hcls, hret⟩)

theorem decodeFamily8_verdict (hop : fieldOp w = 0x8#4) : Verdict c w (decodeFamily8 w) := by
  unfold decodeFamily8
  split
  case h_10 => exact .unknown ((illegal_op8 hop).mpr (by simp_all))
  all_goals next hn => exact .ok (packNibbles_of_op_n hop hn) rfl (by simp [illegal_op8 hop, hn])

theorem decodeFamilyE_verdict (hop : fieldOp w = 0xE#4) : Verdict c w (decodeFamilyE c w) := by
  unfold decodeFamilyE
  split
  case h_1 hn => exact .of_check (packNibbles_of_op_n hop hn) rfl (illegal_opE_nE hop hn)
  case h_2 hn => exact .of_check (packNibbles_of_op_n hop hn) rfl (illegal_opE_n1 hop hn)
  case h_3 hnE hn1 => exact .unknown (illegal_opE hop hnE hn1)

theorem decodeFamilyF_verdict (hop : fieldOp w = 0xF#4) : Verdict c w (decodeFamilyF w) := by
  unfold decodeFamilyF
  split
  case h_10 => exact .unknown ((illegal_opF hop).mpr (by simp_all))
  all_goals next hkk => exact .ok (packByte_of_op_kk hop hkk) rfl (by simp [illegal_opF hop, hkk])

/-- The match on op of R63 leaves no nibble out. -/
theorem nibble_exhausted : ∀ o : Nibble, o ∈ [0x0#4, 0x1#4, 0x2#4, 0x3#4, 0x4#4, 0x5#4, 0x6#4, 0x7#4, 0x8#4, 0x9#4,
    0xA#4, 0xB#4, 0xC#4, 0xD#4, 0xE#4, 0xF#4] := by decide

variable (c w) in
/-- The decoder's answer, by the leading nibble (R63). -/
theorem decode_verdict : Verdict c w (decode c w) := by
  unfold decode
  split
  case h_1 hop => exact decodeFamily0_verdict hop
  case h_9 hop => exact decodeFamily8_verdict hop
  case h_15 hop => exact decodeFamilyE_verdict hop
  case h_16 hop => exact decodeFamilyF_verdict hop
  case h_6 hop => exact .of_check (packNibbles_of_op hop) rfl (illegal_op59 (.inl hop))
  case h_10 hop => exact .of_check (packNibbles_of_op hop) rfl (illegal_op59 (.inr hop))
  case h_14 hop => exact .ok (packNibbles_of_op hop) rfl (not_illegal_of_op (by simp [hop]))
  case h_2 hop | h_3 hop | h_11 hop | h_12 hop =>
    exact .ok (packAddr_of_op hop) rfl (not_illegal_of_op (by simp [hop]))
  case h_4 hop | h_5 hop | h_7 hop | h_8 hop | h_13 hop =>
    exact .ok (packByte_of_op hop) rfl (not_illegal_of_op (by simp [hop]))
  case h_17 => exact absurd (nibble_exhausted (fieldOp w)) (by simp_all)

theorem decode_ok {i : Instr} (h : decode c w = .ok i) :
    encode i = w ∧ i.wellFormed c = true ∧ ¬ Illegal c w := by
  have hv := decode_verdict c w
  rw [h] at hv
  cases hv with
  | ok word wf legal => exact ⟨word, wf, legal⟩

theorem decode_error {e : DecodeError} (h : decode c w = .error e) : e = .unknownOpcode w ∧ Illegal c w := by
  have hv := decode_verdict c w
  rw [h] at hv
  cases hv with
  | unknown illegal => exact ⟨rfl, illegal⟩

theorem decode_error_iff : (∃ e, decode c w = .error e) ↔ Illegal c w := by
  refine ⟨fun ⟨e, h⟩ => (decode_error h).2, fun hill => ?_⟩
  cases h : decode c w with
  | error e => exact ⟨e, rfl⟩
  | ok i => exact absurd hill (decode_ok h).2.2

/-- Of a word, Unknown is the decoder's only error. -/
theorem decode_unknown_iff : decode c w = .error (.unknownOpcode w) ↔ Illegal c w := by
  refine ⟨fun h => (decode_error h).2, fun hill => ?_⟩
  obtain ⟨e, h⟩ := decode_error_iff.mpr hill
  rw [h, (decode_error h).1]

end

/-- Settles O3: by the verdict on the word. -/
theorem encodeDecodeAgree : Obligations.EncodeDecodeAgree := by
  intro c w i h
  obtain ⟨word, wf, -⟩ := decode_ok h
  exact ⟨word, wf⟩

/-! ### The decoder on an encoded instruction -/

/-- Settles O2: the fields of the packed word select the instruction's own arm; in the four arms that canonical mode
checks, the check is what makes the instruction well formed. -/
theorem decodeEncodeAgree : Obligations.DecodeEncodeAgree := by
  intro c i h
  cases i with
  | cls | ret => rfl
  | jp | call | ldI | jpV0 | seImm | sneImm | ldImm | addImm | rnd | drw => simp [encode, decode]
  | ldReg | orReg | andReg | xorReg | addReg | subReg | shr | subnReg | shl => simp [encode, decode, decodeFamily8]
  | ldVxDT | ldVxK | ldDTVx | ldSTVx | addI | ldF | ldB | storeRegs | loadRegs => simp [encode, decode, decodeFamilyF]
  | seReg | sneReg => simpa [encode, decode] using check_passes_iff.mp h
  | skp | sknp => simpa [encode, decode, decodeFamilyE] using check_passes_iff.mp h

/-- Settles O6: the two bytes put together are the encoded word, and O2 decodes it. -/
theorem decodeBytesConsumesTwo : Obligations.DecodeBytesConsumesTwo := by
  intro c i rest h
  refine ⟨rfl, ?_⟩
  simp [encodeBytes, decodeBytes, wordOfBytes_high_low, decodeEncodeAgree c i h]

/-! ### The rows of the opcode map (R59, R60) -/

section
variable {c : Bool} {w m p : Word}

theorem OpcodeRow.selects_iff : OpcodeRow.selects ⟨p, m⟩ w = true ↔ w &&& m = p := beq_iff_eq

/-- A selected word has the row's op, y, n or kk where the mask covers that field. -/
theorem fieldOp_of_mask (h : w &&& m = p) (hm : fieldOp m = 0xF#4) : fieldOp w = fieldOp p := by
  rw [← h, fieldOp, fieldOp, BitVec.extractLsb'_and, ← fieldOp, ← fieldOp, hm, nibble_and_all]

theorem fieldY_of_mask (h : w &&& m = p) (hm : fieldY m = 0xF#4) : fieldY w = fieldY p := by
  rw [← h, fieldY, fieldY, BitVec.extractLsb'_and, ← fieldY, ← fieldY, hm, nibble_and_all]

theorem fieldN_of_mask (h : w &&& m = p) (hm : fieldN m = 0xF#4) : fieldN w = fieldN p := by
  rw [← h, fieldN, fieldN, BitVec.extractLsb'_and, ← fieldN, ← fieldN, hm, nibble_and_all]

theorem fieldKK_of_mask (h : w &&& m = p) (hm : fieldKK m = 0xFF#8) : fieldKK w = fieldKK p := by
  rw [← h, fieldKK, fieldKK, BitVec.extractLsb'_and, ← fieldKK, ← fieldKK, hm, byte_and_all]

theorem not_illegal_of_row0 (h : OpcodeRow.selects ⟨p, 0xFFFF#16⟩ w = true) (hop : fieldOp p = 0x0#4)
    (hp : p = 0x00E0#16 ∨ p = 0x00EE#16) : ¬ Illegal c w := by
  obtain rfl : w = p := BitVec.and_allOnes.symm.trans (OpcodeRow.selects_iff.mp h)
  rw [illegal_op0 hop]
  tauto

theorem not_illegal_of_row_op (h : OpcodeRow.selects ⟨p, 0xF000#16⟩ w = true)
    (hop : fieldOp p ∉ [0x0#4, 0x5#4, 0x8#4, 0x9#4, 0xE#4, 0xF#4]) : ¬ Illegal c w :=
  not_illegal_of_op (by rwa [fieldOp_of_mask (OpcodeRow.selects_iff.mp h) (by decide)])

theorem not_illegal_of_row8 (h : OpcodeRow.selects ⟨p, 0xF00F#16⟩ w = true) (hop : fieldOp p = 0x8#4)
    (hn : fieldN p ∈ [0x0#4, 0x1#4, 0x2#4, 0x3#4, 0x4#4, 0x5#4, 0x6#4, 0x7#4, 0xE#4]) : ¬ Illegal c w := by
  have hsel := OpcodeRow.selects_iff.mp h
  rwa [illegal_op8 ((fieldOp_of_mask hsel (by decide)).trans hop), fieldN_of_mask hsel (by decide), not_not]

theorem not_illegal_of_rowF (h : OpcodeRow.selects ⟨p, 0xF0FF#16⟩ w = true) (hop : fieldOp p = 0xF#4)
    (hkk : fieldKK p ∈ [0x07#8, 0x0A#8, 0x15#8, 0x18#8, 0x1E#8, 0x29#8, 0x33#8, 0x55#8, 0x65#8]) :
    ¬ Illegal c w := by
  have hsel := OpcodeRow.selects_iff.mp h
  rwa [illegal_opF ((fieldOp_of_mask hsel (by decide)).trans hop), fieldKK_of_mask hsel (by decide), not_not]

/-- Doc mode ignores the nibble that canonical mode checks (R58, R60). -/
theorem not_illegal_of_row59_doc (h : OpcodeRow.selects ⟨p, 0xF000#16⟩ w = true)
    (hop : fieldOp p = 0x5#4 ∨ fieldOp p = 0x9#4) : ¬ Illegal false w := by
  rw [← fieldOp_of_mask (OpcodeRow.selects_iff.mp h) (by decide)] at hop
  simp [illegal_op59 hop]

theorem not_illegal_of_row59_canonical (h : OpcodeRow.selects ⟨p, 0xF00F#16⟩ w = true)
    (hop : fieldOp p = 0x5#4 ∨ fieldOp p = 0x9#4) (hn : fieldN p = 0x0#4) : ¬ Illegal c w := by
  have hsel := OpcodeRow.selects_iff.mp h
  rw [← fieldOp_of_mask hsel (by decide)] at hop
  simp [illegal_op59 hop, fieldN_of_mask hsel (by decide), hn]

theorem not_illegal_of_rowE_doc (h : OpcodeRow.selects ⟨p, 0xF00F#16⟩ w = true) (hop : fieldOp p = 0xE#4)
    (hn : fieldN p = 0xE#4 ∨ fieldN p = 0x1#4) : ¬ Illegal false w := by
  have hsel := OpcodeRow.selects_iff.mp h
  rw [← fieldOp_of_mask hsel (by decide)] at hop
  rw [← fieldN_of_mask hsel (by decide)] at hn
  rcases hn with hn | hn
  · simp [illegal_opE_nE hop hn]
  · simp [illegal_opE_n1 hop hn]

theorem not_illegal_of_rowE_canonical (h : OpcodeRow.selects ⟨p, 0xF0FF#16⟩ w = true) (hop : fieldOp p = 0xE#4)
    (hyn : fieldN p = 0xE#4 ∧ fieldY p = 0x9#4 ∨ fieldN p = 0x1#4 ∧ fieldY p = 0xA#4) : ¬ Illegal c w := by
  have hsel := OpcodeRow.selects_iff.mp h
  rw [← fieldOp_of_mask hsel (by decide)] at hop
  rw [← fieldN_of_mask hsel (by decide), ← fieldY_of_mask hsel (by decide)] at hyn
  rcases hyn with ⟨hn, hy⟩ | ⟨hn, hy⟩
  · simp [illegal_opE_nE hop hn, hy]
  · simp [illegal_opE_n1 hop hn, hy]

/-- A word that a row of the opcode map selects is legal. -/
theorem not_illegal_of_selects {i : Instr} (h : (opcodeRow c i).selects w = true) : ¬ Illegal c w := by
  cases i with
  | cls | ret => exact not_illegal_of_row0 h (by decide) (by decide)
  | jp | call | ldI | jpV0 | seImm | sneImm | ldImm | addImm | rnd | drw => exact not_illegal_of_row_op h (by decide)
  | ldReg | orReg | andReg | xorReg | addReg | subReg | shr | subnReg | shl =>
    exact not_illegal_of_row8 h (by decide) (by decide)
  | ldVxDT | ldVxK | ldDTVx | ldSTVx | addI | ldF | ldB | storeRegs | loadRegs =>
    exact not_illegal_of_rowF h (by decide) (by decide)
  | seReg | sneReg =>
    cases c with
    | false => exact not_illegal_of_row59_doc h (by decide)
    | true => exact not_illegal_of_row59_canonical h (by decide) (by decide)
  | skp | sknp =>
    cases c with
    | false => exact not_illegal_of_rowE_doc h (by decide) (by decide)
    | true => exact not_illegal_of_rowE_canonical h (by decide) (by decide)

end

theorem opcodeRow_mem_opcodeTable (c : Bool) (i : Instr) : opcodeRow c i ∈ opcodeTable c := by
  cases i <;> simp [opcodeTable, opcodeSamples, opcodeRow]

open Laws.TableRow in
/-- The word of a well-formed instruction selects the instruction's row. -/
theorem opcodeRow_selects_encode : ∀ i : Instr, Statement i
  | .cls => cls | .ret => ret | .jp _ => jp _ | .call _ => call _ | .seImm _ _ => seImm _ _
  | .sneImm _ _ => sneImm _ _ | .seReg _ _ _ => seReg _ _ _ | .ldImm _ _ => ldImm _ _ | .addImm _ _ => addImm _ _
  | .ldReg _ _ => ldReg _ _ | .orReg _ _ => orReg _ _ | .andReg _ _ => andReg _ _ | .xorReg _ _ => xorReg _ _
  | .addReg _ _ => addReg _ _ | .subReg _ _ => subReg _ _ | .shr _ _ => shr _ _ | .subnReg _ _ => subnReg _ _
  | .shl _ _ => shl _ _ | .sneReg _ _ _ => sneReg _ _ _ | .ldI _ => ldI _ | .jpV0 _ => jpV0 _ | .rnd _ _ => rnd _ _
  | .drw _ _ _ => drw _ _ _ | .skp _ _ => skp _ _ | .sknp _ _ => sknp _ _ | .ldVxDT _ => ldVxDT _
  | .ldVxK _ => ldVxK _ | .ldDTVx _ => ldDTVx _ | .ldSTVx _ => ldSTVx _ | .addI _ => addI _ | .ldF _ => ldF _
  | .ldB _ => ldB _ | .storeRegs _ => storeRegs _ | .loadRegs _ => loadRegs _

/-- Settles O4: a selected word is legal by its fields, and a word that decodes is selected by the row of its
instruction. -/
theorem unknownIffNoRowSelects : Obligations.UnknownIffNoRowSelects := by
  intro c w
  rw [decode_unknown_iff]
  constructor
  · intro hill r hr
    obtain ⟨i, -, rfl⟩ := List.mem_map.mp hr
    exact Bool.eq_false_iff.mpr fun hsel => not_illegal_of_selects hsel hill
  · intro hnone
    cases h : decode c w with
    | error e => exact (decode_error h).2
    | ok i =>
      obtain ⟨rfl, wf, -⟩ := decode_ok h
      have hsel := opcodeRow_selects_encode i c wf
      exact absurd hsel (Bool.eq_false_iff.mp (hnone _ (opcodeRow_mem_opcodeTable c i)))

/-! ### R61's lists by number -/

section
variable (w : Word)

theorem fieldOp_toNat : (fieldOp w).toNat = w.toNat / 4096 := by
  simp only [fieldOp, BitVec.extractLsb'_toNat, Nat.shiftRight_eq_div_pow]; omega

theorem fieldY_toNat : (fieldY w).toNat = w.toNat / 16 % 16 := by
  simp only [fieldY, BitVec.extractLsb'_toNat, Nat.shiftRight_eq_div_pow]

theorem fieldN_toNat : (fieldN w).toNat = w.toNat % 16 := by
  simp only [fieldN, BitVec.extractLsb'_toNat, Nat.shiftRight_zero]

theorem fieldKK_toNat : (fieldKK w).toNat = w.toNat % 256 := by
  simp only [fieldKK, BitVec.extractLsb'_toNat, Nat.shiftRight_zero]

end

/-- Settles O5: the decoder's illegal words, with each field read as a number. -/
theorem illegalWordsListed : Obligations.IllegalWordsListed := by
  intro w
  constructor
  · rw [decode_error_iff, illegal_false]
    simp [IllegalInDoc, ← BitVec.toNat_inj, fieldOp_toNat, fieldN_toNat, fieldKK_toNat]
  · rw [decode_error_iff, decode_error_iff, illegal_true]
    simp [IllegalAddedByCanonical, ← BitVec.toNat_inj, fieldOp_toNat, fieldN_toNat, fieldY_toNat]

/-- Settles O1: by evaluation of the decoder on the thirteen words. -/
theorem sampleWordsDecode : Obligations.SampleWordsDecode := by
  unfold Obligations.SampleWordsDecode
  decide

end Sys2Proof
end

section
/-! SUPPORT. One cycle from its parts: what `step` answers in each case of the fetch, what the end of a cycle writes,
and that every handler answers a next state at a stack pointer the machine can hold (40_cycle.md R65 to R75). -/

namespace Sys2Proof.Machine

section
variable {s t : State} {i : Instr}

/-! ### The answer of a step, by case of the fetch (R65 to R67) -/

theorem step_of_fault {r : FaultRecord} (hf : s.fault = some r) : step s = .fault (.halted r) := by
  simp [step, hf]

theorem step_of_bad_pc (hf : s.fault = none) (hpc : pcInRange s.pc = false) :
    step s = .next (s.raise .pcOutOfRange 0 s.pc) := by
  simp [step, hf, cycle, hpc, raised]

/-- At a pc that passes the check a step is the dispatch of the fetched word (R66, R67). -/
theorem step_of_fetch (hf : s.fault = none) (hpc : pcInRange s.pc = true) : step s = dispatchWord s.fetchWord s := by
  simp [step, hf, cycle, hpc]

theorem dispatchWord_of_ok {w : Word} (hd : decode s.params.canonicalDecode w = .ok i) :
    dispatchWord w s = finishCycle (exec i s) := by
  simp [dispatchWord, hd]

theorem dispatchWord_of_error {w : Word} {e : DecodeError} (hd : decode s.params.canonicalDecode w = .error e) :
    dispatchWord w s = .next (s.raise .unknownOpcode w w) := by
  simp [dispatchWord, hd, raised]

theorem pcInRange_eq_false_iff {pc : Word} :
    pcInRange pc = false ↔ pc.toNat % 2 = 1 ∨ pc.toNat < 0x200 ∨ 0xFFE < pc.toNat := by
  rw [← Bool.not_eq_true, pcInRange_iff]
  omega

/-! ### The end of a cycle (R70 to R72) -/

theorem finishCycle_of_fault (hf : t.fault ≠ none) : finishCycle (.next t) = .next t :=
  finishCycle_next.mpr (.inl ⟨rfl, Option.isSome_iff_ne_none.mpr hf⟩)

theorem finishCycle_of_no_fault (hf : t.fault = none) : finishCycle (.next t) = .next t.endCycle :=
  finishCycle_next.mpr (.inr ⟨t, rfl, hf, rfl⟩)

theorem State.endCycle_dt_toNat (s : State) :
    s.endCycle.dt.toNat = if s.params.timerCoupled then s.dt.toNat - 1 else s.dt.toNat := by
  rw [State.endCycle_dt, apply_ite BitVec.toNat, decTimer_toNat]

theorem State.endCycle_st_toNat (s : State) :
    s.endCycle.st.toNat = if s.params.timerCoupled then s.st.toNat - 1 else s.st.toNat := by
  rw [State.endCycle_st, apply_ite BitVec.toNat, decTimer_toNat]

/-- The frame of the end of a cycle: it writes the timers and the snapshot of the display alone. -/
theorem State.endCycle_unchanged (s : State) : Unchanged [.dt, .st, .dispExport] s s.endCycle := by
  intro p hp
  cases p with
  | dt | st | dispExport => simp at hp
  | v => exact s.readV_endCycle
  | mem => simp [Part.same, State.memRead]
  | key => simp [Part.same, State.readKey]
  | i | pc | sp | stack | disp | fault | params | draws => simp [Part.same]

/-! ### Every handler answers (R73) -/

theorem execRet_completes (hsp : s.sp.toNat ≤ 16) : ∃ t, execRet s = .next t := by
  unfold execRet
  split
  · exact ⟨_, rfl⟩
  · rw [dif_pos (show s.sp.toNat - 1 < 16 by omega)]
    exact ⟨_, rfl⟩

theorem execCall_completes (hsp : s.sp.toNat ≤ 16) (nnn : Addr12) : ∃ t, execCall nnn s = .next t := by
  unfold execCall
  split
  · exact ⟨_, rfl⟩
  · rw [dif_pos (show s.sp.toNat < 16 by bv_omega)]
    exact ⟨_, rfl⟩

/-- Only CALL and RET have a path that stops the machine, at a stack pointer above 16 (10_state.md R23). -/
theorem exec_completes (hsp : s.sp.toNat ≤ 16) (i : Instr) : ∃ t, exec i s = .next t := by
  cases i with
  | ret => exact execRet_completes hsp
  | call nnn => exact execCall_completes hsp nnn
  | ldF | skp | sknp | ldVxK =>
    simp only [exec, execLdF, execSkp, execSknp, execLdVxK]
    split <;> exact ⟨_, rfl⟩
  | cls | jp | seImm | sneImm | seReg | ldImm | addImm | ldReg | orReg | andReg | xorReg | addReg | subReg | shr
  | subnReg | shl | sneReg | ldI | jpV0 | rnd | drw | ldVxDT | ldDTVx | ldSTVx | addI | ldB | storeRegs
  | loadRegs => exact ⟨_, rfl⟩

theorem finishCycle_completes (t : State) : ∃ u, finishCycle (.next t) = .next u := by
  by_cases hf : t.fault = none
  · exact ⟨_, finishCycle_of_no_fault hf⟩
  · exact ⟨_, finishCycle_of_fault hf⟩

theorem dispatchWord_completes (hsp : s.sp.toNat ≤ 16) (w : Word) : ∃ t, dispatchWord w s = .next t := by
  cases hd : decode s.params.canonicalDecode w with
  | error e => exact ⟨_, dispatchWord_of_error hd⟩
  | ok i =>
    obtain ⟨t, ht⟩ := exec_completes hsp i
    rw [dispatchWord_of_ok hd, ht]
    exact finishCycle_completes t

/-! ### A handler that raises, on the fetched word (R72) -/

/-- The register of an instruction that can raise UndefinedOperand is the field x of its word. -/
theorem fieldX_encode_of_operand {x : Nibble} (hi : i = .ldF x ∨ ∃ y, i = .skp x y ∨ i = .sknp x y) :
    fieldX (encode i) = x := by
  obtain rfl | ⟨y, rfl | rfl⟩ := hi <;> simp [encode]

/-! ### LD Vx, K without a pressed key (45_keypad_timers.md R110) -/

theorem State.pressedKeys_eq_nil (hk : ∀ k, s.readKey k = false) : s.pressedKeys = [] :=
  List.eq_nil_iff_forall_not_mem.mpr fun k hmem => by simp [State.mem_pressedKeys, hk] at hmem

/-- The handler holds: pc and everything else stay. -/
theorem exec_ldVxK_of_no_key (hk : ∀ k, s.readKey k = false) (x : Nibble) : exec (.ldVxK x) s = .next s := by
  simp [exec, execLdVxK, State.pressedKeys_eq_nil hk, complete]

end

/-- Settles O7: the fetch check passes and the decoder answers the instruction. -/
theorem stepRunsDecoded : Obligations.StepRunsDecoded := by
  intro s i hf hpc hd
  rw [step_of_fetch hf hpc, dispatchWord_of_ok hd]

/-- Settles O8: by the fault register the handler leaves. -/
theorem cycleEndDecrementsAndExports : Obligations.CycleEndDecrementsAndExports := by
  refine fun t => ⟨finishCycle_of_fault, fun hf => ⟨_, finishCycle_of_no_fault hf, t.endCycle_dt_toNat,
    t.endCycle_st_toNat, fun c r => ?_, t.endCycle_unchanged⟩⟩
  rw [State.endCycle_dispExport]

/-- Settles O10: such a pc fails the fetch check. -/
theorem badPcRaises : Obligations.BadPcRaises :=
  fun _ hf hpc => step_of_bad_pc hf (pcInRange_eq_false_iff.mpr hpc)

/-- Settles O11: the fetch check passes and the decoder refuses the word. -/
theorem unknownWordRaises : Obligations.UnknownWordRaises := by
  intro s e hf hpc hd
  rw [step_of_fetch hf ((pcInRange_iff _).mpr hpc), dispatchWord_of_error hd]
  rfl

/-- Settles O12: step reads the fault register first, and a cycle input without a next state keeps the state. -/
theorem faultedStateTakesNoCycle : Obligations.FaultedStateTakesNoCycle := by
  intro s r hf
  have hstep := step_of_fault hf
  exact ⟨hstep, by simp [HostInput.apply, hstep]⟩

/-- Settles O13: a step that ends with a fault held has raised at the fetch, at the decoder or in the handler; the end
of a cycle raises nothing. -/
theorem raiseWritesOnlyFault : Obligations.RaiseWritesOnlyFault := by
  intro s t r h hr
  obtain ⟨hf, ⟨hbad, rfl⟩ | ⟨hpc, ⟨-, -, rfl⟩ | ⟨i, hd, ⟨hexec, ht⟩ | ⟨u, -, hu, rfl⟩⟩⟩⟩ := step_cases h
  · obtain rfl := Option.some.inj hr
    exact ⟨rfl, rfl, by simp [hbad], rfl, rfl⟩
  · obtain rfl := Option.some.inj hr
    exact ⟨rfl, rfl, by simp [hpc], rfl, rfl⟩
  · obtain ⟨k, info, cause, rfl⟩ := exec_raise hf hexec ht
    obtain rfl := Option.some.inj hr
    have hword : encode i = s.fetchWord := (decode_ok hd).1
    refine ⟨rfl, rfl, by simp [hpc, hword], ?_⟩
    cases cause with
    | stackUnderflow hsp => exact ⟨rfl, hsp, by rw [hsp]; rfl⟩
    | stackOverflow _ hsp => exact ⟨rfl, hsp, by rw [hsp]; rfl⟩
    | undefinedOperand x hi hx =>
      rw [← hword, fieldX_encode_of_operand hi]
      exact ⟨rfl, hx, zextByte_toNat _⟩
  · simp [hu] at hr

/-- Settles O14: a failed fetch check and a failed decode raise, and at sp at most 16 every handler answers. -/
theorem unfaultedCycleCompletes : Obligations.UnfaultedCycleCompletes := by
  intro s ⟨_, hsp, _⟩ hf
  cases hpc : pcInRange s.pc with
  | false => exact ⟨_, step_of_bad_pc hf hpc⟩
  | true =>
    rw [step_of_fetch hf hpc]
    exact dispatchWord_completes hsp _

/-- Settles O51: the handler holds the state, so the step is the end of the cycle alone. -/
theorem heldCycleRunsTimers : Obligations.HeldCycleRunsTimers := by
  intro x s hf hpc hd hk
  have hstep : step s = .next s.endCycle := by
    rw [stepRunsDecoded s _ hf hpc hd, exec_ldVxK_of_no_key hk, finishCycle_of_no_fault hf]
  exact ⟨_, hstep, s.endCycle_dt_toNat, s.endCycle_st_toNat, s.endCycle_dispExport, s.endCycle_unchanged⟩

end Sys2Proof.Machine
end

section
/-! SUPPORT. Control transfer and skips (41_control.md R76 to R84): the next state of each instruction of the family,
once, and what it leaves unchanged. -/

namespace Sys2Proof.Machine

section
variable {s t : State} {i : Instr}

/-! ### The word of an instruction, and what control transfer leaves unchanged -/

/-- A word's number is enough: the decoder reads every encoded instruction back. -/
theorem hasWord_of_toNat {n : Nat} (h : (encode i).toNat = n) : HasWord i n := by
  refine ⟨h, fun c hwf => ?_⟩
  rw [← h, BitVec.ofNat_toNat, BitVec.setWidth_eq]
  exact decodeEncodeAgree c i hwf

/-- The frame of the family: it writes pc, sp and the stack alone, and any of them that is not listed must be as it was. -/
theorem unchanged_of_control {ps : List Part} {pc : Word} {sp : Byte} {stack : Vector Word 16} (hpc : .pc ∈ ps)
    (hsp : .sp ∈ ps ∨ sp = s.sp) (hstack : .stack ∈ ps ∨ stack = s.stack) :
    Unchanged ps s { s with pc := pc, sp := sp, stack := stack } := by
  intro p hp
  cases p with
  | pc => exact absurd hpc hp
  | sp => exact hsp.resolve_left hp
  | stack => exact hstack.resolve_left hp
  | v | mem | key => exact fun _ => rfl
  | disp | dispExport => exact fun _ _ => rfl
  | i | dt | st | fault | params | draws => rfl

theorem unchanged_of_jump (pc : Word) : Unchanged [.pc] s { s with pc := pc } :=
  unchanged_of_control (by simp) (.inr rfl) (.inr rfl)

/-! ### RET and CALL (R77, R79) -/

theorem exec_ret_of_sp {j : Fin 16} (hsp : s.sp.toNat = j.val + 1) :
    exec .ret s = .next { s with sp := s.sp - 1, pc := s.stack[j] + 2 } := by
  have hne : s.sp ≠ 0#8 := by bv_omega
  have htop : s.sp.toNat - 1 = j.val := by omega
  simp [exec, execRet, hne, htop, complete, State.advance]

theorem exec_call_of_lt {nnn : Addr12} (hsp : s.sp.toNat < 16) :
    exec (.call nnn) s = .next { s.push s.pc hsp with pc := zextAddr nnn } := by
  have hne : s.sp ≠ 16#8 := by bv_omega
  simp [exec, execCall, hne, hsp, complete]

theorem raises_ret_of_sp_zero (hsp : s.sp = 0) : Raises .ret s .stackUnderflow 0 := by
  simp [Raises, exec, execRet, hsp, raised, State.raise, zextByte]

theorem raises_call_of_sp_full {nnn : Addr12} (hsp : s.sp = 16) : Raises (.call nnn) s .stackOverflow 16 := by
  simp [Raises, exec, execCall, hsp, raised, State.raise, zextByte]

theorem State.push_sp_toNat (w : Word) (hsp : s.sp.toNat < 16) : (s.push w hsp).sp.toNat = s.sp.toNat + 1 := by
  rw [State.push_sp]; bv_omega

/-! ### A bad target at the next fetch (40_cycle.md R66) -/

/-- An address field never exceeds 0xFFF, so a bad target is odd or low. -/
theorem nextFetchRaises_of_target {nnn : Addr12} (hpc : t.pc.toNat = nnn.toNat) (hf : t.fault = none)
    (hbad : nnn.toNat % 2 = 1 ∨ nnn.toNat < 0x200) : NextFetchRaises t :=
  badPcRaises t hf (by rw [hpc]; omega)

/-- JP V0 reaches the unreduced sum (R84). -/
theorem jpV0_target_toNat (nnn : Addr12) (b : Byte) :
    (zextAddr nnn + zextByte b).toNat = nnn.toNat + b.toNat := by
  rw [BitVec.toNat_add, zextAddr_toNat, zextByte_toNat]; omega

/-! ### The skips (R76, R80 to R83) -/

/-- Canonical mode refuses a register skip with a nonzero trailing nibble (30_encoding.md R60). -/
theorem decode_canonical_of_trailing {o x y z : Nibble} (ho : o = 0x5#4 ∨ o = 0x9#4) (hz : z ≠ 0) :
    decode true (packNibbles o x y z) = .error (.unknownOpcode (packNibbles o x y z)) :=
  decode_unknown_iff.mpr ((illegal_op59 (by simpa using ho)).mpr ⟨rfl, by simpa using hz⟩)

/-- An instruction that skips on `c` moves pc alone, by 4 or by 2; `c` stands for the condition `p`. -/
theorem completes_of_skipIf {c : Bool} {p : Prop} [Decidable p] (hexec : exec i s = skipIf c s) (hc : c = true ↔ p) :
    Completes i s fun t => t.pc = (if p then s.pc + 4 else s.pc + 2) ∧ Unchanged [.pc] s t := by
  refine ⟨_, hexec.trans (skipIf_next.mpr rfl), ?_, unchanged_of_jump _⟩
  simp only [hc]

theorem beq_iff_toNat_eq {a b : Byte} : (a == b) = true ↔ a.toNat = b.toNat := by
  rw [beq_iff_eq, BitVec.toNat_inj]

theorem bne_iff_toNat_ne {a b : Byte} : (a != b) = true ↔ a.toNat ≠ b.toNat := by
  rw [bne_iff_ne, ne_eq, ne_eq, BitVec.toNat_inj]

end

/-- Settles O21: at sp = j + 1 the handler pops entry j and advances past it. -/
theorem returnPopsOrUnderflows : Obligations.ReturnPopsOrUnderflows := by
  refine ⟨hasWord_of_toNat rfl, fun s j hsp => ⟨_, exec_ret_of_sp hsp, rfl, ?_, ?_⟩, fun _ => raises_ret_of_sp_zero⟩
  · simp only; bv_omega
  · exact unchanged_of_control (by simp) (.inl (by simp)) (.inr rfl)

/-- Settles O23: below 16 the handler pushes pc and jumps. -/
theorem callPushesOrOverflows : Obligations.CallPushesOrOverflows := by
  refine fun nnn s => ⟨hasWord_of_toNat (packAddr_toNat _ _), fun hsp => ?_, raises_call_of_sp_full⟩
  refine ⟨_, exec_call_of_lt hsp, zextAddr_toNat nnn, s.push_sp_toNat s.pc hsp, fun j => ?_, ?_, fun hf hbad => ?_⟩
  · simp [Vector.getElem_set, eq_comm]
  · exact unchanged_of_control (by simp) (.inl (by simp)) (.inl (by simp))
  · exact nextFetchRaises_of_target (zextAddr_toNat nnn) hf hbad

/-- Settles O24: RET pops the entry that CALL pushed, its own address. -/
theorem callThenReturnResumes : Obligations.CallThenReturnResumes := by
  intro nnn s hsp
  have hret := exec_ret_of_sp (s := { s.push s.pc hsp with pc := zextAddr nnn }) (j := ⟨s.sp.toNat, hsp⟩)
    (s.push_sp_toNat s.pc hsp)
  refine ⟨_, exec_call_of_lt hsp, _, hret, ?_, ?_⟩
  · simp
  · exact unchanged_of_control (by simp) (.inr (by simp)) (.inl (by simp))

/-- Settles O25: both are skips on the register and the byte. -/
theorem immediateSkips : Obligations.ImmediateSkips :=
  fun _ _ _ => ⟨hasWord_of_toNat (packByte_toNat _ _ _), hasWord_of_toNat (packByte_toNat _ _ _),
    completes_of_skipIf rfl beq_iff_toNat_eq, completes_of_skipIf rfl bne_iff_toNat_ne⟩

/-- Settles O26: both are skips on the two registers, and canonical mode admits their words only with a zero trailing
nibble (30_encoding.md R60). -/
theorem registerSkips : Obligations.RegisterSkips :=
  fun _ _ _ _ => ⟨hasWord_of_toNat (packNibbles_toNat _ _ _ _), hasWord_of_toNat (packNibbles_toNat _ _ _ _),
    fun hz => ⟨decode_canonical_of_trailing (.inl rfl) hz, decode_canonical_of_trailing (.inr rfl) hz⟩,
    completes_of_skipIf rfl beq_iff_toNat_eq, completes_of_skipIf rfl bne_iff_toNat_ne⟩

/-- Settles O27: the sum does not wrap, and the next fetch checks it. -/
theorem jumpWithOffset : Obligations.JumpWithOffset := by
  intro nnn s
  have hpc := jpV0_target_toNat nnn (s.readV 0)
  refine ⟨hasWord_of_toNat (packAddr_toNat _ _), _, rfl, hpc, unchanged_of_jump _, fun hf hbad => ?_⟩
  exact badPcRaises _ hf (by rwa [← hpc] at hbad)

/-- Settles O22: the handler writes pc alone, and the next fetch checks it. -/
theorem jumpSetsPc : Obligations.JumpSetsPc :=
  fun nnn _ => ⟨hasWord_of_toNat (packAddr_toNat _ _), _, rfl, zextAddr_toNat nnn, unchanged_of_jump _,
    fun hf hbad => nextFetchRaises_of_target (zextAddr_toNat nnn) hf hbad⟩

end Sys2Proof.Machine
end

section
/-! SUPPORT. Register loads and the ALU (42_alu.md R85 to R97): what a write of one register, alone or with the flag,
gives a completed instruction, and the flags as numbers. -/

namespace Sys2Proof.Machine

section
variable {s : State} {i : Instr} {x : Nibble} {b : Byte}

/-! ### What a completed register instruction reads as -/

theorem Completes.imp {P Q : State → Prop} (h : Completes i s P) (hPQ : ∀ t, P t → Q t) : Completes i s Q := by
  obtain ⟨t, hexec, ht⟩ := h
  exact ⟨t, hexec, hPQ t ht⟩

/-- The frame of the family: it writes general registers and pc, and the draw counter where that is listed. -/
theorem unchanged_of_registers {ps : List Part} {v : Vector Byte 16} {pc : Word} {draws : Nat} (hv : .v ∈ ps)
    (hpc : .pc ∈ ps) (hdraws : .draws ∈ ps ∨ draws = s.draws) :
    Unchanged ps s { s with v := v, pc := pc, draws := draws } := by
  intro p hp
  cases p with
  | v => exact absurd hv hp
  | pc => exact absurd hpc hp
  | draws => exact hdraws.resolve_left hp
  | mem | key => exact fun _ => rfl
  | disp | dispExport => exact fun _ _ => rfl
  | i | sp | stack | dt | st | fault | params => rfl

/-- An instruction that writes V[x] and goes on to the next word. -/
theorem completes_of_writeV (hexec : exec i s = complete .next (s.writeV x b)) :
    Completes i s fun t =>
      (∀ r, t.readV r = if r = x then b else s.readV r) ∧ t.pc = s.pc + 2 ∧ Unchanged [.v, .pc] s t :=
  ⟨_, hexec, fun r => s.readV_writeV r x b, rfl, unchanged_of_registers (by simp) (by simp) (.inr rfl)⟩

/-- A logic operation, by the rule for the bits of its result. -/
theorem completes_of_bitwise {bit : Nat → Bool} (hexec : exec i s = complete .next (s.writeV x b))
    (hbit : ∀ k, b.getLsbD k = bit k) :
    Completes i s fun t =>
      (∀ k, k < 8 → (t.readV x).getLsbD k = bit k) ∧ (∀ r, r ≠ x → t.readV r = s.readV r) ∧ t.pc = s.pc + 2 ∧
      Unchanged [.v, .pc] s t := by
  refine (completes_of_writeV hexec).imp fun t ⟨hread, hframe⟩ => ⟨fun k _ => ?_, fun r hr => ?_, hframe⟩
  · rw [hread, if_pos rfl, hbit]
  · rw [hread, if_neg hr]

/-- An operation with a flag, by the numbers of its result and its flag: the flag is written last (R85). -/
theorem completes_of_writeResultFlag {f : Byte} {result flag : Nat}
    (hexec : exec i s = complete .next (s.writeResultFlag x b f)) (hflag : f.toNat = flag)
    (hresult : b.toNat = result) :
    Completes i s fun t =>
      (t.readV flagReg).toNat = flag ∧ (x ≠ flagReg → (t.readV x).toNat = result) ∧
      (∀ r, r ≠ x → r ≠ flagReg → t.readV r = s.readV r) ∧ t.pc = s.pc + 2 ∧ Unchanged [.v, .pc] s t := by
  refine ⟨_, hexec, ?_, fun hx => ?_, fun r hrx hrf => ?_, rfl,
    unchanged_of_registers (by simp) (by simp) (.inr rfl)⟩
  · simp [State.readV_writeResultFlag, hflag]
  · simp [State.readV_writeResultFlag, hx, hresult]
  · simp [State.readV_writeResultFlag, hrx, hrf]

/-! ### Words, differences and flags as numbers -/

/-- Family 8 with the trailing nibble next to op, as the opcode map writes its words (30_encoding.md R59). -/
theorem packNibbles_op8_toNat (x y n : Nibble) :
    (packNibbles 0x8#4 x y n).toNat = 0x8000 + n.toNat + 0x100 * x.toNat + 0x10 * y.toNat := by
  rw [packNibbles_toNat, BitVec.toNat_ofNat]; omega

theorem byte_sub_toNat (a b : Byte) : (a - b).toNat = (256 + a.toNat - b.toNat) % 256 := by
  rw [BitVec.toNat_sub]; omega

theorem flagByte_decide_toNat (p : Prop) [Decidable p] : (flagByte (decide p)).toNat = if p then 1 else 0 := by
  by_cases hp : p <;> simp [flagByte, hp]

theorem carryFlag_toNat (a b : Byte) : (carryFlag a b).toNat = if 255 < a.toNat + b.toNat then 1 else 0 :=
  flagByte_decide_toNat _

theorem noBorrowFlag_toNat (a b : Byte) : (noBorrowFlag a b).toNat = if b.toNat ≤ a.toNat then 1 else 0 :=
  flagByte_decide_toNat _

theorem shiftedOutRight_toNat (a : Byte) : (shiftedOutRight a).toNat = a.toNat % 2 := by
  revert a; decide

theorem shiftedOutLeft_toNat (a : Byte) : (shiftedOutLeft a).toNat = a.toNat / 128 := by
  revert a; decide

theorem byte_shiftRight_one_toNat (a : Byte) : (a >>> 1).toNat = a.toNat / 2 := by
  rw [BitVec.toNat_ushiftRight, Nat.shiftRight_eq_div_pow, Nat.pow_one]

theorem byte_shiftLeft_one_toNat (a : Byte) : (a <<< 1).toNat = 2 * a.toNat % 256 := by
  rw [BitVec.toNat_shiftLeft, Nat.shiftLeft_eq, Nat.mul_comm, Nat.pow_one]

end

/-- Settles O28: both write one register. -/
theorem registerLoads : Obligations.RegisterLoads :=
  fun _ _ _ _ => ⟨hasWord_of_toNat (packByte_toNat _ _ _), hasWord_of_toNat (packNibbles_op8_toNat _ _ _),
    completes_of_writeV rfl, completes_of_writeV rfl⟩

/-- Settles O29: the sum of two bytes is the sum modulo 256, and one register is written. -/
theorem addImmediateWraps : Obligations.AddImmediateWraps := by
  intro x kk s
  refine ⟨hasWord_of_toNat (packByte_toNat _ _ _), (completes_of_writeV rfl).imp fun t ⟨hread, hframe⟩ => ?_⟩
  refine ⟨fun r => ?_, hframe⟩
  rw [hread, apply_ite BitVec.toNat, BitVec.toNat_add]

/-- Settles O30: the library's rules for the bits of OR, AND and XOR. -/
theorem logicBitwise : Obligations.LogicBitwise :=
  fun _ _ _ => ⟨hasWord_of_toNat (packNibbles_op8_toNat _ _ _), hasWord_of_toNat (packNibbles_op8_toNat _ _ _),
    hasWord_of_toNat (packNibbles_op8_toNat _ _ _), completes_of_bitwise rfl fun _ => BitVec.getLsbD_or,
    completes_of_bitwise rfl fun _ => BitVec.getLsbD_and, completes_of_bitwise rfl fun _ => BitVec.getLsbD_xor⟩

/-- Settles O31: both operands are read before the sum and the carry are written. -/
theorem addSetsCarry : Obligations.AddSetsCarry :=
  fun _ _ _ => ⟨hasWord_of_toNat (packNibbles_op8_toNat _ _ _),
    completes_of_writeResultFlag rfl (carryFlag_toNat _ _) (BitVec.toNat_add _ _)⟩

/-- Settles O32: the flag compares the operands in the order of the difference. -/
theorem subtractSetsNoBorrow : Obligations.SubtractSetsNoBorrow :=
  fun _ _ _ => ⟨hasWord_of_toNat (packNibbles_op8_toNat _ _ _),
    completes_of_writeResultFlag rfl (noBorrowFlag_toNat _ _) (byte_sub_toNat _ _)⟩

/-- Settles O33: the subtraction's rules with the operands exchanged. -/
theorem subtractReversedSetsNoBorrow : Obligations.SubtractReversedSetsNoBorrow :=
  fun _ _ _ => ⟨hasWord_of_toNat (packNibbles_op8_toNat _ _ _),
    completes_of_writeResultFlag rfl (noBorrowFlag_toNat _ _) (byte_sub_toNat _ _)⟩

/-- Settles O34: the value that is shifted is the one `State.shiftOperand` reads (D7). -/
theorem shiftsPutOutBit : Obligations.ShiftsPutOutBit := by
  intro x y s a ha
  have hop : a = (s.shiftOperand x y).toNat := by
    rw [ha, State.shiftOperand]
    cases s.params.shiftSource <;> rfl
  subst hop
  exact ⟨hasWord_of_toNat (packNibbles_op8_toNat _ _ _), hasWord_of_toNat (packNibbles_op8_toNat _ _ _),
    completes_of_writeResultFlag rfl (shiftedOutRight_toNat _) (byte_shiftRight_one_toNat _),
    completes_of_writeResultFlag rfl (shiftedOutLeft_toNat _) (byte_shiftLeft_one_toNat _)⟩

/-- Settles O35: V[x] is the free draw AND kk, so a bit that is 0 in kk is 0 there. -/
theorem randomIsMasked : Obligations.RandomIsMasked := by
  intro x kk s
  have hread := s.readV_writeV_same x (Config.rngByte s.draws &&& kk)
  refine ⟨hasWord_of_toNat (packByte_toNat _ _ _), _, rfl, ⟨_, hread⟩, fun k _ hk => ?_,
    fun r hr => s.readV_writeV_ne hr _, rfl, unchanged_of_registers (by simp) (by simp) (.inl (by simp))⟩
  calc _ = (Config.rngByte s.draws &&& kk).getLsbD k := congrArg (·.getLsbD k) hread
    _ = false := by rw [BitVec.getLsbD_and, hk, Bool.and_false]

end Sys2Proof.Machine
end

section
/-! SUPPORT. The address register and memory transfers (43_index_memory.md R98 to R103): what a write of I or of memory
gives a completed instruction, and what LD B, LD [I] and LD Vx, [I] read as afterwards. -/

namespace Sys2Proof.Machine

section
variable {s t u : State} {i : Instr} {x : Nibble}

/-! ### What a completed transfer leaves unchanged -/

/-- The frame of the family: it writes I, memory and pc, and any of the first two that is not listed must be as it
was. -/
theorem unchanged_of_transfer {ps : List Part} {a pc : Word} {m : Memory} (hpc : .pc ∈ ps) (hi : .i ∈ ps ∨ a = s.i)
    (hmem : .mem ∈ ps ∨ m = s.mem) : Unchanged ps s { s with i := a, mem := m, pc := pc } := by
  intro p hp
  cases p with
  | pc => exact absurd hpc hp
  | i => exact hi.resolve_left hp
  | mem => exact fun b => congrArg (Memory.read · (b % 4096)) (hmem.resolve_left hp)
  | v | key => exact fun _ => rfl
  | disp | dispExport => exact fun _ _ => rfl
  | sp | stack | dt | st | fault | params | draws => rfl

theorem Part.same_trans {p : Part} (h : p.same s t) (h' : p.same t u) : p.same s u := by
  cases p with
  | v | mem | key => exact fun k => (h' k).trans (h k)
  | disp | dispExport => exact fun c r => (h' c r).trans (h c r)
  | i | pc | sp | stack | dt | st | fault | params | draws => exact Eq.trans h' h

/-- An instruction that writes I and goes on to the next word. -/
theorem completes_of_writeI {w : Word} {n : Nat} (hexec : exec i s = complete .next { s with i := w })
    (hw : w.toNat = n) :
    Completes i s fun t => t.i.toNat = n ∧ t.pc = s.pc + 2 ∧ Unchanged [.i, .pc] s t :=
  ⟨_, hexec, hw, rfl, unchanged_of_transfer (by simp) (.inl (by simp)) (.inr rfl)⟩

/-! ### Words and addresses as numbers -/

/-- Family F with the trailing byte next to op, as the opcode map writes its words (30_encoding.md R59). -/
theorem packByte_opF_toNat (x : Nibble) (kk : Byte) :
    (packByte 0xF#4 x kk).toNat = 0xF000 + kk.toNat + 0x100 * x.toNat := by
  rw [packByte_toNat, BitVec.toNat_ofNat]; omega

/-- ADD I, Vx wraps at 16 bits (R99). -/
theorem addI_sum_toNat (w : Word) (b : Byte) : (w + zextByte b).toNat = (w.toNat + b.toNat) % 65536 := by
  rw [BitVec.toNat_add, zextByte_toNat]

theorem glyphAddr_toNat (d : Nibble) : (glyphAddr d).toNat = 5 * d.toNat := by
  unfold glyphAddr; bv_omega

theorem zextByte_eq_ofNat (b : Byte) : zextByte b = BitVec.ofNat 16 b.toNat := (BitVec.ofNat_toNat 16 b).symm

/-! ### LD F, Vx (R100) -/

theorem exists_indexOf_of_le {b : Byte} (hb : b.toNat ≤ 0xF) : ∃ d, indexOf b = some d ∧ d.toNat = b.toNat := by
  cases h : indexOf b with
  | none => exact absurd (indexOf_eq_none.mp h) (Nat.not_lt.mpr hb)
  | some d => exact ⟨d, rfl, (indexOf_eq_some.mp h).2⟩

theorem exec_ldF_of_digit {d : Nibble} (hd : indexOf (s.readV x) = some d) :
    exec (.ldF x) s = complete .next { s with i := glyphAddr d } := by
  simp [exec, execLdF, hd]

theorem raises_ldF_of_large (hx : 0xF < (s.readV x).toNat) :
    Raises (.ldF x) s .undefinedOperand (BitVec.ofNat 16 (s.readV x).toNat) := by
  rw [← zextByte_eq_ofNat]
  simp [Raises, exec, execLdF, indexOf_eq_none.mpr hx, raised, State.raise]

/-! ### LD B, Vx (R101) -/

theorem bcdHundreds_toNat (b : Byte) : (bcdHundreds b).toNat = b.toNat / 100 := by
  rw [bcdHundreds, BitVec.toNat_ofNat]; omega

theorem bcdTens_toNat (b : Byte) : (bcdTens b).toNat = b.toNat / 10 % 10 := by
  rw [bcdTens, BitVec.toNat_ofNat]; omega

theorem bcdOnes_toNat (b : Byte) : (bcdOnes b).toNat = b.toNat % 10 := by
  rw [bcdOnes, BitVec.toNat_ofNat]; omega

/-- The three writes of LD B. -/
def State.storeDigits (s : State) (b : Byte) : State :=
  ((s.memWrite (s.dataAddr 0) (bcdHundreds b)).memWrite (s.dataAddr 1) (bcdTens b)).memWrite (s.dataAddr 2) (bcdOnes b)

theorem exec_ldB (x : Nibble) (s : State) :
    exec (.ldB x) s = .next ((s.storeDigits (s.readV x)).advance .next) := rfl

/-- What a read finds after LD B: the last digit written at the address, or the byte that was there. -/
theorem State.memRead_storeDigits (h : Memory.wf s.mem = true) (b : Byte) (a : Nat) :
    (s.storeDigits b).memRead a =
      if a % 4096 = (s.i.toNat + 2) % 4096 then bcdOnes b
      else if a % 4096 = (s.i.toNat + 1) % 4096 then bcdTens b
      else if a % 4096 = (s.i.toNat + 0) % 4096 then bcdHundreds b
      else s.memRead a := by
  have h1 := State.memWrite_wf h (s.dataAddr 0) (bcdHundreds b)
  have h2 := State.memWrite_wf h1 (s.dataAddr 1) (bcdTens b)
  rw [State.storeDigits, State.memRead_memWrite h2, State.memRead_memWrite h1, State.memRead_memWrite h]
  simp only [State.dataAddr, Nat.mod_mod]

/-! ### LD Vx, [I] (R103) -/

theorem exec_loadRegs (x : Nibble) (s : State) :
    exec (.loadRegs x) s = .next ((s.loadRegs (x.toNat + 1)).advance .next) := rfl

end

/-- Settles O36: the handler writes the zero-extended address field to I. -/
theorem loadAddressRegister : Obligations.LoadAddressRegister :=
  fun nnn _ => ⟨hasWord_of_toNat (packAddr_toNat _ _), completes_of_writeI rfl (zextAddr_toNat nnn)⟩

/-- Settles O37: the sum of two 16-bit words is the sum modulo 65536. -/
theorem addToAddressRegister : Obligations.AddToAddressRegister :=
  fun _ _ => ⟨hasWord_of_toNat (packByte_opF_toNat _ _), completes_of_writeI rfl (addI_sum_toNat _ _)⟩

/-- Settles O38: a value up to 0xF is a digit with a glyph, and a larger one is none. -/
theorem fontAddressOrUndefined : Obligations.FontAddressOrUndefined := by
  refine fun x s => ⟨hasWord_of_toNat (packByte_opF_toNat _ _), fun hle => ?_, raises_ldF_of_large⟩
  obtain ⟨d, hd, hval⟩ := exists_indexOf_of_le hle
  exact completes_of_writeI (exec_ldF_of_digit hd) (by rw [glyphAddr_toNat, hval])

/-- Settles O39: the three addresses are distinct modulo 4096, so no digit overwrites another. -/
theorem bcdStoresDigits : Obligations.BcdStoresDigits := by
  refine fun x s hwf => ⟨hasWord_of_toNat (packByte_opF_toNat _ _), _, exec_ldB x s, ?hundreds, ?tens, ?ones,
    fun a ha => ?kept, rfl, unchanged_of_transfer (by simp) (.inr rfl) (.inl (by simp))⟩ <;>
    rw [State.memRead_advance, State.memRead_storeDigits hwf]
  case hundreds => rw [if_neg (by omega), if_neg (by omega), if_pos rfl, bcdHundreds_toNat]
  case tens => rw [if_neg (by omega), if_pos rfl, bcdTens_toNat]
  case ones => rw [if_pos rfl, bcdOnes_toNat]
  case kept => rw [if_neg (ha 2 (by omega)), if_neg (ha 1 (by omega)), if_neg (ha 0 (by omega))]

/-- Settles O40: the loop writes memory alone, and at most 16 addresses, which are distinct modulo 4096. -/
theorem storeRegistersWrites : Obligations.StoreRegistersWrites := by
  intro x s hwf
  obtain ⟨-, kept⟩ := State.memRead_storeRegs hwf (n := x.toNat + 1) (by omega)
  refine ⟨hasWord_of_toNat (packByte_opF_toNat _ _), _, exec_storeRegs x s, fun k hk => ?_, fun a ha => ?_, ?_, ?_⟩
  · rw [State.memRead_advance, State.memRead_storeRegs_at hwf (by omega) (Nat.lt_succ_of_le hk) rfl]
  · rw [State.memRead_advance, kept a fun k hk => ha k (Nat.le_of_lt_succ hk)]
  · rw [State.advance_next_pc, State.storeRegs_pc]
  · rw [State.storeRegs_frame]
    exact unchanged_of_transfer (by simp) (.inr rfl) (.inl (by simp))

/-- Settles O41: the loop writes general registers alone, and every byte is read from the memory before it. -/
theorem loadRegistersReads : Obligations.LoadRegistersReads := by
  intro x s
  refine ⟨hasWord_of_toNat (packByte_opF_toNat _ _), _, exec_loadRegs x s, fun r => ?_, ?_, ?_⟩
  · simp only [State.readV_advance, s.readV_loadRegs (show x.toNat + 1 ≤ 16 by omega), Nat.lt_succ_iff]
  · rw [State.advance_next_pc, State.loadRegs_frame]
  · rw [State.loadRegs_frame]
    exact unchanged_of_registers (by simp) (by simp) (.inr rfl)

/-- Settles O42: the store keeps I, so the load reads back the byte that each register wrote; every other part is kept
by both. -/
theorem storeThenLoadRestores : Obligations.StoreThenLoadRestores := by
  intro x s hwf
  obtain ⟨-, t, hstore, stored, -, -, hkeep⟩ := storeRegistersWrites x s hwf
  obtain ⟨-, u, hload, loaded, -, hkeep'⟩ := loadRegistersReads x t
  have hI : t.i = s.i := hkeep .i (by simp)
  have hV : ∀ r, t.readV r = s.readV r := hkeep .v (by simp)
  refine ⟨t, hstore, u, hload, fun p hp => ?_⟩
  by_cases hv : p = .v
  · subst hv
    intro r
    rw [loaded, hI, hV]
    split
    · next hr => exact stored r hr
    · rfl
  · exact Part.same_trans (hkeep p hp) (hkeep' p (by simp_all))

end Sys2Proof.Machine
end

section
/-! SUPPORT. The display instructions (44_display.md R104 to R106): the pixels of a sprite fall on distinct cells, so a
drawing toggles each cell under a set bit once; and what CLS and DRW leave unchanged. -/

namespace Sys2Proof.Machine

section
variable {s t : State} {d : Display} {a : Display × Bool} {P Q : Fin 64 → Fin 32 → Prop}

/-! ### A drawing in progress -/

/-- A loop's invariant that speaks of the passes done so far. -/
theorem forUpTo_invariant {α : Type} (I : Nat → α → Prop) {f : Nat → α → α} {a : α} (n : Nat) (h0 : I 0 a)
    (hs : ∀ k a, k < n → I k a → I (k + 1) (f k a)) : I n (forUpTo n f a) := by
  induction n with
  | zero => exact h0
  | succ n ih => exact hs n _ (Nat.lt_succ_self n) (ih fun k a hk => hs k a (Nat.lt_succ_of_lt hk))

/-- From the display `d` a drawing has toggled exactly the cells in `P`, and its flag says whether one of them was on
(R106). -/
structure Toggled (d : Display) (P : Fin 64 → Fin 32 → Prop) (a : Display × Bool) : Prop where
  covered : ∀ c r, P c r → a.1.cell c r = !d.cell c r
  uncovered : ∀ c r, ¬ P c r → a.1.cell c r = d.cell c r
  collision : a.2 = true ↔ ∃ c r, P c r ∧ d.cell c r = true

theorem Toggled.congr (h : Toggled d P a) (hPQ : ∀ c r, Q c r ↔ P c r) : Toggled d Q a := by
  obtain rfl : Q = P := funext₂ fun c r => propext (hPQ c r)
  exact h

theorem toggled_none (hP : ∀ c r, ¬ P c r) : Toggled d P (d, false) where
  covered c r h := absurd h (hP c r)
  uncovered _ _ _ := rfl
  collision := by simp [hP]

/-- A cell not toggled before joins the toggled ones. -/
theorem Toggled.toggle {col : Fin 64} {row : Fin 32} (h : Toggled d P a) (hnew : ¬ P col row) :
    Toggled d (fun c r => P c r ∨ (c = col ∧ r = row)) (a.1.toggle col row, a.2 || a.1.cell col row) where
  covered c r hc := by
    rw [Display.cell_toggle]
    split
    · next he => rw [he.1, he.2, h.uncovered col row hnew]
    · next he => exact h.covered c r (hc.resolve_right he)
  uncovered c r hc := by
    rw [Display.cell_toggle, if_neg fun he => hc (.inr he)]
    exact h.uncovered c r fun hP => hc (.inl hP)
  collision := by
    rw [Bool.or_eq_true, h.collision, h.uncovered col row hnew]
    constructor
    · rintro (⟨c, r, hP, hon⟩ | hon)
      · exact ⟨c, r, .inl hP, hon⟩
      · exact ⟨col, row, .inr ⟨rfl, rfl⟩, hon⟩
    · rintro ⟨c, r, hP | ⟨rfl, rfl⟩, hon⟩
      · exact .inl ⟨c, r, hP, hon⟩
      · exact .inr hon

/-! ### The cells that a drawing has passed -/

section
variable {sprite : Nat → Byte} {x0 y0 row k : Nat} {c : Fin 64} {r : Fin 32}

/-- The set pixel `dc` of sprite row `dr` falls on the cell (R105, R106). -/
def PixelOver (sprite : Nat → Byte) (x0 y0 dr dc : Nat) (c : Fin 64) (r : Fin 32) : Prop :=
  c = Fin.ofNat 64 (x0 + dc) ∧ r = Fin.ofNat 32 (y0 + dr) ∧ spriteBit (sprite dr) dc = true

/-- A set pixel of the sprite falls on the cell, and the drawing comes to it before pixel `k` of sprite row `row`. -/
def CoveredBefore (sprite : Nat → Byte) (x0 y0 row k : Nat) (c : Fin 64) (r : Fin 32) : Prop :=
  ∃ dr dc, (dr < row ∨ dr = row ∧ dc < k) ∧ dc < 8 ∧ PixelOver sprite x0 y0 dr dc c r

theorem not_coveredBefore_zero : ¬ CoveredBefore sprite x0 y0 0 0 c r := by
  rintro ⟨dr, dc, hlt, -⟩
  omega

theorem coveredBefore_succ (hk : k < 8) :
    CoveredBefore sprite x0 y0 row (k + 1) c r ↔
      CoveredBefore sprite x0 y0 row k c r ∨ PixelOver sprite x0 y0 row k c r := by
  constructor
  · rintro ⟨dr, dc, hlt, h8, hover⟩
    by_cases he : dr = row ∧ dc = k
    · obtain ⟨rfl, rfl⟩ := he
      exact .inr hover
    · exact .inl ⟨dr, dc, by omega, h8, hover⟩
  · rintro (⟨dr, dc, hlt, h8, hover⟩ | hover)
    · exact ⟨dr, dc, by omega, h8, hover⟩
    · exact ⟨row, k, by omega, hk, hover⟩

/-- The next row begins after the eight pixels of this one. -/
theorem coveredBefore_nextRow :
    CoveredBefore sprite x0 y0 (row + 1) 0 c r ↔ CoveredBefore sprite x0 y0 row 8 c r :=
  exists₂_congr fun _ _ => and_congr_left fun _ => by omega

/-- No cell is passed twice: 8 columns and 32 rows are distinct modulo 64 and 32. -/
theorem not_coveredBefore_current (hrow : row < 32) (hk : k < 8) :
    ¬ CoveredBefore sprite x0 y0 row k (Fin.ofNat 64 (x0 + k)) (Fin.ofNat 32 (y0 + row)) := by
  rintro ⟨dr, dc, hlt, h8, hcol, hrow', -⟩
  have hcol := congrArg Fin.val hcol
  have hrow' := congrArg Fin.val hrow'
  simp only [Fin.val_ofNat] at hcol hrow'
  omega

/-! ### The pixels, the rows and the whole sprite -/

theorem toggled_drawPixel (hrow : row < 32) (hk : k < 8) (h : Toggled d (CoveredBefore sprite x0 y0 row k) a) :
    Toggled d (CoveredBefore sprite x0 y0 row (k + 1))
      (drawPixel (sprite row) x0 (Fin.ofNat 32 (y0 + row)) k a) := by
  unfold drawPixel
  split
  · next hbit =>
    exact (h.toggle (not_coveredBefore_current hrow hk)).congr fun _ _ => by
      simp only [coveredBefore_succ hk, PixelOver, hbit, and_true]
  · next hbit =>
    exact h.congr fun _ _ => by
      rw [coveredBefore_succ hk, PixelOver, or_iff_left fun ⟨_, _, h⟩ => hbit h]

theorem toggled_drawRow (hrow : row < 32) (h : Toggled d (CoveredBefore sprite x0 y0 row 0) a) :
    Toggled d (CoveredBefore sprite x0 y0 (row + 1) 0) (drawRow (sprite row) x0 (Fin.ofNat 32 (y0 + row)) a) :=
  (forUpTo_invariant (fun k => Toggled d (CoveredBefore sprite x0 y0 row k)) 8 h
    fun _ _ hk ih => toggled_drawPixel hrow hk ih).congr fun _ _ => coveredBefore_nextRow

theorem toggled_drawSprite {n : Nat} (hn : n ≤ 32) :
    Toggled d (CoveredBefore sprite x0 y0 n 0) (drawSprite sprite x0 y0 n d) :=
  forUpTo_invariant (fun row => Toggled d (CoveredBefore sprite x0 y0 row 0)) n
    (toggled_none fun _ _ => not_coveredBefore_zero) fun _ _ hk ih => toggled_drawRow (by omega) ih

end

/-! ### The sprite of DRW -/

/-- What DRW Vx, Vy, n draws, with its collision. -/
def State.drawn (s : State) (x y n : Nibble) : Display × Bool :=
  drawSprite (fun r => s.memRead (s.dataAddr r)) ((s.readV x).toNat % 64) ((s.readV y).toNat % 32) n.toNat s.disp

theorem exec_drw (x y n : Nibble) (s : State) :
    exec (.drw x y n) s =
      .next (({ s with disp := (s.drawn x y n).1 }.writeV flagReg (collisionFlag (s.drawn x y n).2)).advance .next) :=
  rfl

/-- `SpriteCovers` speaks of the cells that the whole drawing passes. -/
theorem spriteCovers_iff_coveredBefore {x y n : Nibble} {c : Fin 64} {r : Fin 32} :
    SpriteCovers s x y n c r ↔
      CoveredBefore (fun r => s.memRead (s.dataAddr r)) ((s.readV x).toNat % 64) ((s.readV y).toNat % 32) n.toNat 0
        c r := by
  refine exists₂_congr fun dr dc => ?_
  simp only [PixelOver, spriteBit, State.dataAddr, State.memRead_mod, Fin.ext_iff, Fin.val_ofNat, Nat.mod_add_mod,
    Nat.not_lt_zero, and_false, or_false]

theorem State.toggled_drawn (s : State) (x y n : Nibble) : Toggled s.disp (SpriteCovers s x y n) (s.drawn x y n) :=
  (toggled_drawSprite (by omega)).congr fun _ _ => spriteCovers_iff_coveredBefore

/-- A sprite's cells depend on its two coordinate registers, on I and on memory alone. -/
theorem spriteCovers_congr {x y n : Nibble} (hx : t.readV x = s.readV x) (hy : t.readV y = s.readV y)
    (hi : t.i = s.i) (hmem : ∀ a, t.memRead a = s.memRead a) (c : Fin 64) (r : Fin 32) :
    SpriteCovers t x y n c r ↔ SpriteCovers s x y n c r := by
  simp only [SpriteCovers, hx, hy, hi, hmem]

/-! ### What CLS and DRW leave unchanged -/

/-- The frame of the family: it writes the display and pc, and general registers where they are listed. -/
theorem unchanged_of_display {ps : List Part} {v : Vector Byte 16} {pc : Word} (hdisp : .disp ∈ ps) (hpc : .pc ∈ ps)
    (hv : .v ∈ ps ∨ v = s.v) : Unchanged ps s { s with disp := d, v := v, pc := pc } := by
  intro p hp
  cases p with
  | disp => exact absurd hdisp hp
  | pc => exact absurd hpc hp
  | v => exact State.readV_congr (hv.resolve_left hp)
  | mem | key => exact fun _ => rfl
  | dispExport => exact fun _ _ => rfl
  | i | sp | stack | dt | st | fault | params | draws => rfl

end

/-- Settles O44: the handler writes the blank display. -/
theorem clearTurnsAllOff : Obligations.ClearTurnsAllOff :=
  fun _ => ⟨hasWord_of_toNat rfl, _, rfl, blankDisplay_cell, rfl,
    unchanged_of_display (by simp) (by simp) (.inr rfl)⟩

/-- Settles O45: the drawing toggles each covered cell once, and VF is written last. -/
theorem drawTogglesCoveredCells : Obligations.DrawTogglesCoveredCells := by
  intro x y n s
  obtain ⟨covered, uncovered, collision⟩ := s.toggled_drawn x y n
  refine ⟨hasWord_of_toNat (packNibbles_toNat _ _ _ _), _, exec_drw x y n s, ?_, ?_, fun hhit => ?_, fun hmiss => ?_,
    fun r hr => ?_, ?_, unchanged_of_display (by simp) (by simp) (.inl (by simp))⟩
  · simpa using covered
  · simpa using uncovered
  · simp [collisionFlag, flagByte, collision.mpr hhit]
  · simp [collisionFlag, flagByte, mt collision.mp hmiss]
  · rw [State.readV_advance, State.readV_writeV_ne _ hr]
    rfl
  · rw [State.advance_next_pc, State.writeV_pc]

/-- Settles O46: the first draw keeps what the sprite's cells depend on, so the second toggles the same cells. -/
theorem drawTwiceRestores : Obligations.DrawTwiceRestores := by
  intro x y n s hx hy
  obtain ⟨-, t, hfirst, covered, uncovered, -, -, hV, -, hkeep⟩ := drawTogglesCoveredCells x y n s
  obtain ⟨-, u, hsecond, covered', uncovered', hhit, hmiss, -⟩ := drawTogglesCoveredCells x y n t
  have hsame := spriteCovers_congr (n := n) (hV x hx) (hV y hy) (hkeep .i (by simp)) (hkeep .mem (by simp))
  simp only [hsame] at covered' uncovered' hhit hmiss
  refine ⟨t, hfirst, u, hsecond, fun c r => ?_, fun hflag => ?_, ?_⟩
  · by_cases hc : SpriteCovers s x y n c r
    · rw [covered' c r hc, covered c r hc, Bool.not_not]
    · rw [uncovered' c r hc, uncovered c r hc]
  · by_contra hno
    exact absurd (hflag.symm.trans (hmiss hno)) (by decide)
  · exact hhit

end Sys2Proof.Machine
end

section
/-! SUPPORT. The keypad and timer instructions (45_keypad_timers.md R107 to R112): the key index of SKP and SKNP, the
frame of a timer's write, a whole cycle of a handler that completes, and the pressed key that LD Vx, K takes. -/

namespace Sys2Proof.Machine

section
variable {s u : State} {i : Instr} {x y k : Nibble}

/-! ### SKP and SKNP (R107, R108) -/

/-- Family E with the trailing nibble next to op, as the opcode map writes its words (30_encoding.md R59). -/
theorem packNibbles_opE_toNat (x y n : Nibble) :
    (packNibbles 0xE#4 x y n).toNat = 0xE000 + n.toNat + 0x100 * x.toNat + 0x10 * y.toNat := by
  rw [packNibbles_toNat, BitVec.toNat_ofNat]; omega

theorem indexOf_of_toNat_eq {b : Byte} (hb : b.toNat = k.toNat) : indexOf b = some k :=
  indexOf_eq_some.mpr ⟨by omega, hb.symm⟩

theorem exec_skp_of_key (hk : (s.readV x).toNat = k.toNat) : exec (.skp x y) s = skipIf (s.readKey k) s := by
  simp [exec, execSkp, indexOf_of_toNat_eq hk]

theorem exec_sknp_of_key (hk : (s.readV x).toNat = k.toNat) : exec (.sknp x y) s = skipIf (!s.readKey k) s := by
  simp [exec, execSknp, indexOf_of_toNat_eq hk]

/-- A handler that raises UndefinedOperand records the operand's number (92_eei_decisions.md D12). -/
theorem raises_of_undefined_operand
    (hexec : exec i s = raised .undefinedOperand (encode i) (zextByte (s.readV x)) s) :
    Raises i s .undefinedOperand (BitVec.ofNat 16 (s.readV x).toNat) := by
  rw [← zextByte_eq_ofNat]
  exact hexec

theorem raises_skp_of_large (hx : 0xF < (s.readV x).toNat) :
    Raises (.skp x y) s .undefinedOperand (BitVec.ofNat 16 (s.readV x).toNat) :=
  raises_of_undefined_operand (by simp [exec, execSkp, indexOf_eq_none.mpr hx])

theorem raises_sknp_of_large (hx : 0xF < (s.readV x).toNat) :
    Raises (.sknp x y) s .undefinedOperand (BitVec.ofNat 16 (s.readV x).toNat) :=
  raises_of_undefined_operand (by simp [exec, execSknp, indexOf_eq_none.mpr hx])

/-! ### The timers (R109, R111, R112) -/

/-- The frame of the timer loads: they write the timers and pc, and a timer that is not listed must be as it was. -/
theorem unchanged_of_timers {ps : List Part} {pc : Word} {dt st : Byte} (hpc : .pc ∈ ps) (hdt : .dt ∈ ps ∨ dt = s.dt)
    (hst : .st ∈ ps ∨ st = s.st) : Unchanged ps s { s with pc := pc, dt := dt, st := st } := by
  intro p hp
  cases p with
  | pc => exact absurd hpc hp
  | dt => exact hdt.resolve_left hp
  | st => exact hst.resolve_left hp
  | v | mem | key => exact fun _ => rfl
  | disp | dispExport => exact fun _ _ => rfl
  | i | sp | stack | fault | params | draws => rfl

/-- A cycle whose handler completes without a fault: the handler, pc's advance, then the end of the cycle
(40_cycle.md R73). -/
theorem step_of_complete {a : Advance} (hf : s.fault = none) (hpc : pcInRange s.pc = true)
    (hd : decode s.params.canonicalDecode s.fetchWord = .ok i) (hexec : exec i s = complete a u)
    (hu : u.fault = none) : step s = .next (u.advance a).endCycle := by
  rw [stepRunsDecoded s i hf hpc hd, hexec, complete, finishCycle_of_no_fault (by rw [State.advance_fault, hu])]

/-! ### LD Vx, K with a pressed key (R110) -/

theorem zextNibble_toNat (k : Nibble) : (zextNibble k).toNat = k.toNat := by
  unfold zextNibble; bv_omega

theorem exec_ldVxK_of_key (hk : s.readKey k = true) :
    ∃ q, s.readKey q = true ∧
      exec (.ldVxK x) s = complete .next { s.writeV x (zextNibble q) with draws := s.draws + 1 } := by
  cases hkeys : s.pressedKeys with
  | nil => exact absurd (State.mem_pressedKeys.mpr hk) (by simp [hkeys])
  | cons q qs =>
    have hmem : chooseKey q qs (Config.keyChoice s.draws) ∈ s.pressedKeys := hkeys ▸ chooseKey_mem _ _ _
    exact ⟨_, State.mem_pressedKeys.mp hmem, by simp [exec, execLdVxK, hkeys]⟩

end

/-- Settles O47: a value up to 0xF is the index of a key, and a larger one has none. -/
theorem keySkips : Obligations.KeySkips :=
  fun _ _ _ => ⟨hasWord_of_toNat (packNibbles_opE_toNat _ _ _), hasWord_of_toNat (packNibbles_opE_toNat _ _ _),
    fun _ hk => ⟨completes_of_skipIf (exec_skp_of_key hk) Iff.rfl,
      completes_of_skipIf (exec_sknp_of_key hk) (by rw [Bool.not_eq_true'])⟩,
    fun hx => ⟨raises_skp_of_large hx, raises_sknp_of_large hx⟩⟩

/-- Settles O48: one writes a register, the others one timer each. -/
theorem timerMoves : Obligations.TimerMoves :=
  fun _ _ => ⟨hasWord_of_toNat (packByte_opF_toNat _ _), hasWord_of_toNat (packByte_opF_toNat _ _),
    hasWord_of_toNat (packByte_opF_toNat _ _), completes_of_writeV rfl,
    ⟨_, rfl, rfl, rfl, unchanged_of_timers (by simp) (.inl (by simp)) (.inr rfl)⟩,
    ⟨_, rfl, rfl, rfl, unchanged_of_timers (by simp) (.inr rfl) (.inl (by simp))⟩⟩

/-- Settles O49: the end of the cycle decrements the timer that the handler leaves, and keeps the registers. -/
theorem timerMovesInCoupledCycle : Obligations.TimerMovesInCoupledCycle := by
  refine fun x s hf hpc => ⟨fun hd => ?_, fun hd => ?_⟩
  · exact ⟨_, step_of_complete hf hpc hd rfl hf, State.endCycle_dt_toNat _⟩
  · refine ⟨_, step_of_complete hf hpc hd rfl hf, ?_, State.endCycle_dt_toNat _⟩
    rw [State.readV_endCycle, State.readV_advance, State.readV_writeV_same]

/-- Settles O50: the draw is one of the pressed keys, of which there is none or at least one. -/
theorem waitForKeyTakesPressedKey : Obligations.WaitForKeyTakesPressedKey := by
  refine fun x s => ⟨hasWord_of_toNat (packByte_opF_toNat _ _), fun hk => exec_ldVxK_of_no_key hk x, fun k₀ hk₀ => ?_⟩
  obtain ⟨q, hq, hexec⟩ := exec_ldVxK_of_key (x := x) hk₀
  have hread : ((s.writeV x (zextNibble q)).readV x).toNat = q.toNat := by
    rw [State.readV_writeV_same, zextNibble_toNat]
  exact ⟨_, hexec, ⟨q, hq, hread⟩, fun r hr => s.readV_writeV_ne hr _, rfl,
    unchanged_of_registers (by simp) (by simp) (.inl (by simp))⟩

end Sys2Proof.Machine
end

section
/-! SUPPORT. The host's inputs (60_exceptions.md R126 to R134; 70_reset_and_hazards.md R138, R139): the effect of each
input once, what it keeps of the fault register and of the invariant, and memory after a load. -/

namespace Sys2Proof.Machine

section
variable {s : State} {image : List Byte}

/-! ### The effect of each input (60_exceptions.md R133) -/

@[simp] theorem HostInput.apply_tick (s : State) : HostInput.tick.apply s = s.tick := rfl
@[simp] theorem HostInput.apply_setKey (k : Nibble) (b : Bool) (s : State) :
    (HostInput.setKey k b).apply s = s.setKey k b := rfl
@[simp] theorem HostInput.apply_load (image : List Byte) (s : State) :
    (HostInput.load image).apply s = (s.load image).2 := rfl
@[simp] theorem HostInput.apply_reset (s : State) : HostInput.reset.apply s = s.hostReset := rfl
@[simp] theorem HostInput.apply_resumeSkip (s : State) : HostInput.resumeSkip.apply s = s.resumeSkip := rfl

/-- A cycle input takes the step's next state, or changes nothing where the step stops (40_cycle.md R65). -/
theorem HostInput.apply_cycle_cases (s : State) :
    step s = .next (HostInput.cycle.apply s) ∨ HostInput.cycle.apply s = s := by
  cases hstep : step s with
  | next t => exact .inl (by simp [HostInput.apply, hstep])
  | fault f | refused r => exact .inr (by simp [HostInput.apply, hstep])

/-- The tick writes the two timers alone (60_exceptions.md R126, R127). -/
theorem State.tick_eq (s : State) :
    s.tick = { s with dt := if s.params.timerCoupled then s.dt else decTimer s.dt,
                      st := if s.params.timerCoupled then s.st else decTimer s.st } := by
  cases hc : s.params.timerCoupled <;> simp [State.tick, State.timerDecrement, hc]

theorem State.readKey_setKey (s : State) (k : Nibble) (b : Bool) (q : Nibble) :
    (s.setKey k b).readKey q = if q = k then b else s.readKey q := by
  simp only [State.readKey, State.setKey_key, Vector.getElem_set, BitVec.toNat_inj, eq_comm]

theorem State.resumeSkip_of_unknownOpcode {r : FaultRecord} (hf : s.fault = some r) (hk : r.kind = .unknownOpcode) :
    s.resumeSkip = { s with pc := s.pc + 2, fault := none } := by
  obtain ⟨-, -, -, heq⟩ | ⟨hne, -⟩ := s.resumeSkip_cases
  · exact heq
  · exact absurd hk (hne r hf)

theorem State.resumeSkip_of_other (hne : ∀ r, s.fault = some r → r.kind ≠ .unknownOpcode) : s.resumeSkip = s := by
  obtain ⟨r, hf, hk, -⟩ | ⟨-, heq⟩ := s.resumeSkip_cases
  · exact absurd hk (hne r hf)
  · exact heq

theorem State.load_of_large (h : 3584 < image.length) : s.load image = (.programTooLarge, s) :=
  if_pos h

/-- A load that fits clears the registers and leaves in memory the image over the kept font (60_exceptions.md R132). -/
theorem State.load_of_fits (h : image.length ≤ 3584) :
    s.load image = (.ok, { s.clearRegisters with mem := (s.reload.writeImage 0x200 image).mem }) := by
  rw [State.load, if_neg (show ¬ maxProgram < image.length from Nat.not_lt.mpr h), State.writeImage_frame]
  rfl

/-! ### The frames of the tick and of set_key -/

/-- A write of the timers and the keys leaves every other part, and those of the three that are not listed must be as
they were. -/
theorem unchanged_of_timers_keys {ps : List Part} {dt st : Byte} {key : Vector Bool 16} (hdt : .dt ∈ ps ∨ dt = s.dt)
    (hst : .st ∈ ps ∨ st = s.st) (hkey : .key ∈ ps ∨ key = s.key) :
    Unchanged ps s { s with dt := dt, st := st, key := key } := by
  intro p hp
  cases p with
  | dt => exact hdt.resolve_left hp
  | st => exact hst.resolve_left hp
  | key => rw [hkey.resolve_left hp]; exact fun _ => rfl
  | v | mem => exact fun _ => rfl
  | disp | dispExport => exact fun _ _ => rfl
  | i | pc | sp | stack | fault | params | draws => rfl

/-! ### Memory after a load (60_exceptions.md R132; 70_reset_and_hazards.md R139) -/

theorem resetByte_beyond_font {a : Nat} (ha : 0x050 ≤ a) : resetByte a = 0x00 := fontByte_beyond _ ha

/-- Keeping the font drops exactly the entries from 0x050 on. -/
theorem Memory.read_keepFont (m : Memory) (a : Nat) :
    Memory.read (Memory.keepFont m) a = if a < 0x050 then Memory.read m a else resetByte a := by
  induction m with
  | nil => exact (ite_self _).symm
  | cons c m ih =>
    obtain ⟨a', b⟩ := c
    simp only [Memory.keepFont, List.filter_cons, decide_eq_true_eq] at ih ⊢
    by_cases hkept : a' < 0x050
    · rw [if_pos hkept, Memory.read_cons, Memory.read_cons, ih]
      by_cases e : a = a'
      · simp [e, hkept]
      · simp [e]
    · rw [if_neg hkept, ih]
      by_cases hlt : a < 0x050
      · rw [if_pos hlt, if_pos hlt, Memory.read_cons, if_neg (by omega)]
      · rw [if_neg hlt, if_neg hlt]

/-- After a reload memory reads as the kept font and zeros. -/
theorem State.memRead_reload (s : State) (a : Nat) :
    s.reload.memRead a = if a % 4096 < 0x050 then s.memRead a else 0x00 := by
  refine (Memory.read_keepFont s.mem (a % 4096)).trans ?_
  split
  · rfl
  · exact resetByte_beyond_font (by omega)

/-- An image that ends at or before 0x1000 leaves the bytes outside its range. -/
theorem State.memRead_writeImage_outside (hwf : Memory.wf s.mem = true) {a b : Nat} (hend : a + image.length ≤ 4096)
    (hb : b % 4096 < a ∨ a + image.length ≤ b % 4096) : (s.writeImage a image).memRead b = s.memRead b := by
  induction image generalizing s a with
  | nil => rfl
  | cons c image ih =>
    rw [List.length_cons] at hend hb
    rw [State.writeImage, ih (State.memWrite_wf hwf a c) (by omega) (by omega), State.memRead_memWrite hwf,
      if_neg (by omega)]

/-- Byte k of an image that ends at or before 0x1000 stands k past its start. -/
theorem State.memRead_writeImage_at (hwf : Memory.wf s.mem = true) {a k : Nat} (hend : a + image.length ≤ 4096)
    (hk : k < image.length) : (s.writeImage a image).memRead (a + k) = image[k] := by
  induction image generalizing s a k with
  | nil => exact absurd hk (Nat.not_lt_zero k)
  | cons c image ih =>
    rw [List.length_cons] at hend hk
    have hwf' := State.memWrite_wf hwf a c
    cases k with
    | zero =>
      rw [State.writeImage, State.memRead_writeImage_outside hwf' (by omega) (by omega), State.memRead_memWrite hwf]
      exact if_pos rfl
    | succ k =>
      rw [State.writeImage, show a + (k + 1) = a + 1 + k by omega, ih hwf' (by omega) (by omega)]
      rfl

theorem State.memRead_load_at (hwf : Memory.wf s.mem = true) (hfits : image.length ≤ 3584) {k : Nat}
    (hk : k < image.length) : (s.load image).2.memRead (0x200 + k) = image[k] := by
  rw [State.load_of_fits hfits]
  exact State.memRead_writeImage_at (s := s.reload) (Memory.wf_keepFont hwf) (by omega) hk

/-- Outside the image a loaded memory reads as the reloaded one. -/
theorem State.memRead_load_outside (hwf : Memory.wf s.mem = true) (hfits : image.length ≤ 3584) {a : Nat}
    (ha : a ≤ 0xFFF) (hout : a < 0x200 ∨ 0x200 + image.length ≤ a) :
    (s.load image).2.memRead a = if a < 0x050 then s.memRead a else 0x00 := by
  have hmod : a % 4096 = a := Nat.mod_eq_of_lt (by omega)
  have hkept := State.memRead_writeImage_outside (s := s.reload) (Memory.wf_keepFont hwf) (a := 0x200) (b := a)
    (image := image) (by omega) (by omega)
  rw [State.memRead_reload, hmod] at hkept
  rw [State.load_of_fits hfits]
  exact hkept

/-! ### The invariant (60_exceptions.md R133, R134) -/

/-- The registers that Reset and Reload clear meet the invariant over any canonical memory. -/
theorem inv_clearRegisters {m : Memory} (hm : Memory.wf m = true) (key : Vector Bool 16) :
    Inv { s.clearRegisters with mem := m, key := key } :=
  ⟨hm, Nat.zero_le _, fun _ hj => absurd hj (Nat.not_lt_zero _), by simp [State.clearRegisters], rfl, rfl⟩

theorem inv_load (hs : Inv s) (image : List Byte) : Inv (s.load image).2 := by
  rcases Nat.lt_or_ge 3584 image.length with hlarge | hfits
  · rw [State.load_of_large hlarge]
    exact hs
  · rw [State.load_of_fits hfits]
    exact inv_clearRegisters (State.writeImage_wf (Memory.wf_keepFont (inv_iff.mp hs).1.mem) _ _) s.key

/-- A held UnknownOpcode fault was raised at a pc that passed the fetch check, so the skip stays in range
(60_exceptions.md R120, R121). -/
theorem inv_resumeSkip (hs : Inv s) : Inv s.resumeSkip := by
  obtain ⟨r, hf, hk, heq⟩ | ⟨-, heq⟩ := s.resumeSkip_cases
  · obtain ⟨hsound, hdisp, hfault⟩ := inv_iff.mp hs
    obtain ⟨-, hpc⟩ : r.pc = s.pc ∧ pcInRange s.pc = true := by simpa [FaultOk, hf, hk] using hfault
    have hskip : Sound (s.advance .next) := hsound.advance hpc
    rw [heq]
    exact inv_iff.mpr ⟨hskip.congr rfl rfl rfl rfl, hdisp, rfl⟩
  · rwa [heq]

/-- One host input, of any kind, keeps the invariant. -/
theorem inv_apply (hs : Inv s) (inp : HostInput) : Inv (inp.apply s) := by
  cases inp with
  | cycle =>
    obtain hstep | heq := HostInput.apply_cycle_cases s
    · exact invariantKeptByStep s _ hs hstep
    · rwa [heq]
  | tick =>
    rw [HostInput.apply_tick, State.tick_eq]
    exact hs
  | setKey k b => exact hs
  | load image => exact inv_load hs image
  | reset => exact inv_clearRegisters (fontMemory_wf _) _
  | resumeSkip => exact inv_resumeSkip hs

end

/-- Settles O16: by induction on the inputs, each of which keeps the invariant. -/
theorem invariantKeptByInputs : Obligations.InvariantKeptByInputs := by
  intro inputs
  induction inputs with
  | nil => exact fun _ hs => hs
  | cons inp inputs ih => exact fun s hs => ih (inp.apply s) (inv_apply hs inp)

/-- Settles O52: the tick writes the two timers alone, each by `decTimer` or not at all. -/
theorem tickDecrementsWhenDecoupled : Obligations.TickDecrementsWhenDecoupled := by
  intro s
  rw [HostInput.apply_tick, State.tick_eq]
  refine ⟨?_, ?_, unchanged_of_timers_keys (by simp) (by simp) (.inr rfl)⟩ <;>
    rw [apply_ite BitVec.toNat, decTimer_toNat]

/-- Settles O54: an image that fits ends at or before 0x1000, so no byte of it wraps; every register is cleared. -/
theorem loadReloadsAndCopies : Obligations.LoadReloadsAndCopies := by
  refine fun image s hwf => ⟨fun hlarge => ⟨State.load_of_large hlarge, rfl⟩, fun hfits => ?_⟩
  have hfont : ∀ a, a < 0x050 → (s.load image).2.memRead a = s.memRead a := fun a ha => by
    rw [State.memRead_load_outside hwf hfits (by omega) (.inl (by omega)), if_pos ha]
  have hzero : ∀ a, 0x050 ≤ a → a ≤ 0xFFF → (a < 0x200 ∨ 0x200 + image.length ≤ a) →
      (s.load image).2.memRead a = 0x00 := fun a hlo hhi hout => by
    rw [State.memRead_load_outside hwf hfits hhi hout, if_neg (Nat.not_lt.mpr hlo)]
  refine ⟨?_, fun _ hk => State.memRead_load_at hwf hfits hk, hfont, hzero, ?_⟩
  · rw [State.load_of_fits hfits]
  · rw [State.load_of_fits hfits]
    exact ⟨fun _ => by simp [State.readV, State.clearRegisters], rfl, rfl, rfl,
      fun _ => by simp [State.clearRegisters], rfl, rfl, blankDisplay_cell, blankDisplay_cell, rfl, rfl, rfl⟩

/-- Settles O57: only the three listed inputs write the fault register of a state that holds one. -/
theorem faultIsSticky : Obligations.FaultIsSticky := by
  intro inp s r hf
  cases inp with
  | cycle => exact .inl ((faultedStateTakesNoCycle s r hf).2.symm ▸ hf)
  | tick =>
    rw [HostInput.apply_tick, State.tick_eq]
    exact .inl hf
  | setKey k b => exact .inl hf
  | load image =>
    rcases Nat.lt_or_ge 3584 image.length with hlarge | hfits
    · rw [HostInput.apply_load, State.load_of_large hlarge]
      exact .inl hf
    · exact .inr (.inr (.inl ⟨image, rfl, hfits⟩))
  | reset => exact .inr (.inl rfl)
  | resumeSkip =>
    by_cases hk : r.kind = .unknownOpcode
    · exact .inr (.inr (.inr ⟨rfl, hk⟩))
    · rw [HostInput.apply_resumeSkip, State.resumeSkip_of_other (by simp [hf, hk])]
      exact .inl hf

/-- Settles O53: set_key writes one entry of the keypad latch. -/
theorem setKeyWritesOneKey : Obligations.SetKeyWritesOneKey :=
  fun k b s => ⟨s.readKey_setKey k b, unchanged_of_timers_keys (.inr rfl) (.inr rfl) (.inl (by simp))⟩

/-- Settles O56: by the kind of the held fault. -/
theorem resumeSkipClearsUnknownOpcode : Obligations.ResumeSkipClearsUnknownOpcode :=
  fun _ => ⟨fun _ hf hk => State.resumeSkip_of_unknownOpcode hf hk,
    fun _ hf hk => State.resumeSkip_of_other (by simp [hf, hk]), fun hf => State.resumeSkip_of_other (by simp [hf])⟩

end Sys2Proof.Machine
end

section
/-! SUPPORT. Reset and the end of a run (70_reset_and_hazards.md R138, R145): memory as Reset's copy of FONT leaves it,
and the cycle of a JP to its own address. -/

namespace Sys2Proof.Machine

section
variable {s : State}

/-! ### Memory after a reset (R138) -/

/-- A loop that writes `g k` at each address k below n leaves every address from n on as it was. -/
theorem Memory.read_forUpTo_write (g : Nat → Byte) {m : Memory} (hm : Memory.wf m = true) {n : Nat} (hn : n ≤ 4096)
    (a : Nat) :
    Memory.read (forUpTo n (fun k m => Memory.write m k (g k)) m) a = if a < n then g a else Memory.read m a := by
  induction n with
  | zero => rfl
  | succ n ih =>
    have hwf : Memory.wf (forUpTo n (fun k m => Memory.write m k (g k)) m) = true :=
      forUpTo_keeps (fun m : Memory => Memory.wf m = true) n hm fun k _ hk h => Memory.wf_write h (by omega) (g k)
    rw [forUpTo_succ, Memory.read_write hwf, ih (by omega)]
    by_cases e : a = n
    · rw [if_pos e, if_pos (by omega), e]
    · rw [if_neg e, if_congr (show a < n ↔ a < n + 1 by omega) rfl rfl]

/-- A memory with a font reads as that font at every address: past the font both are 0. -/
theorem read_fontMemory (f : Font) (a : Nat) : Memory.read (fontMemory f) a = fontByte f a := by
  rw [fontMemory, Memory.read_forUpTo_write (fontByte f) (m := []) rfl (by omega), Memory.read_nil]
  split
  · rfl
  · next hge => rw [resetByte_beyond_font (by omega), fontByte_beyond f (by omega)]

@[simp] theorem State.hostReset_mem (s : State) : s.hostReset.mem = fontMemory s.params.font := by
  rw [State.hostReset]

theorem State.memRead_hostReset (s : State) {a : Nat} (ha : a < 4096) :
    s.hostReset.memRead a = fontByte s.params.font a := by
  rw [State.memRead, State.hostReset_mem, read_fontMemory, Nat.mod_eq_of_lt ha]

/-! ### A jump to its own address (R145; 41_control.md R78) -/

/-- JP sets pc to its target and the outcome Jumped leaves it there. -/
theorem exec_jp (nnn : Addr12) (s : State) : exec (.jp nnn) s = complete .jumped { s with pc := zextAddr nnn } := rfl

/-- An address below 0x1000 is the target of a JP, whose word is 0x1000 with the address in its low bits. -/
theorem exists_jp_of_lt {pc : Word} (hpc : pc.toNat < 4096) :
    ∃ nnn, zextAddr nnn = pc ∧ encode (.jp nnn) = 0x1000 ||| pc := by
  have hnnn : (pc.setWidth 12).toNat = pc.toNat := by
    rw [BitVec.toNat_setWidth, Nat.mod_eq_of_lt hpc]
  refine ⟨pc.setWidth 12, BitVec.eq_of_toNat_eq (by rw [zextAddr_toNat, hnnn]), BitVec.eq_of_toNat_eq ?_⟩
  calc (packAddr 0x1#4 (pc.setWidth 12)).toNat = 2 ^ 12 * 1 + pc.toNat := by rw [packAddr_toNat, hnnn]; rfl
    _ = 2 ^ 12 * 1 ||| pc.toNat := Nat.two_pow_add_eq_or_of_lt hpc 1
    _ = (0x1000#16 ||| pc).toNat := (BitVec.toNat_or 0x1000#16 pc).symm

/-- The word of a parked state decodes, in both modes, to a JP whose target is pc. -/
theorem Parked.decode_fetchWord (h : Parked s) :
    ∃ nnn, zextAddr nnn = s.pc ∧ decode s.params.canonicalDecode s.fetchWord = .ok (.jp nnn) := by
  obtain ⟨-, hpc, hword⟩ := h
  obtain ⟨-, -, hle⟩ := (pcInRange_iff _).mp hpc
  obtain ⟨nnn, htarget, henc⟩ := exists_jp_of_lt (pc := s.pc) (by omega)
  refine ⟨nnn, htarget, ?_⟩
  rw [hword, ← henc]
  exact decodeEncodeAgree _ _ rfl

/-- The handler of a parked state's JP writes back the pc it had, so its cycle is the end of the cycle alone. -/
theorem Parked.step_eq (h : Parked s) : step s = .next s.endCycle := by
  obtain ⟨nnn, htarget, hd⟩ := h.decode_fetchWord
  obtain ⟨hf, hpc, -⟩ := h
  have hexec : exec (.jp nnn) s = complete .jumped s := by rw [exec_jp, htarget]
  exact step_of_complete hf hpc hd hexec hf

/-- The end of a cycle writes neither memory nor pc. -/
theorem State.fetchWord_endCycle (s : State) : s.endCycle.fetchWord = s.fetchWord := by
  simp [State.fetchWord, State.memRead]

/-- Being parked reads the fault register, pc and memory alone, which the end of a cycle keeps. -/
theorem Parked.endCycle (h : Parked s) : Parked s.endCycle := by
  rwa [Parked, State.endCycle_fault, State.endCycle_pc, State.fetchWord_endCycle]

end

/-- Settles O55: memory by the bytes of the machine's own font, every other piece by its field of the reset state. -/
theorem resetInputRestores : Obligations.ResetInputRestores := by
  intro s
  rw [HostInput.apply_reset]
  refine ⟨fun d k => ?glyph, fun a hlo hhi => ?zeros, fun r => ?registers, rfl, rfl, rfl, fun j => ?stack, rfl, rfl,
    blankDisplay_cell, fun k => ?keys, rfl, blankDisplay_cell, rfl⟩
  case glyph => rw [s.memRead_hostReset (by omega), fontByte_glyph]
  case zeros => rw [s.memRead_hostReset (by omega), fontByte_beyond _ hlo]
  case registers => simp [State.readV, State.hostReset, State.clearRegisters]
  case stack => simp [State.hostReset, State.clearRegisters]
  case keys => simp [State.readKey, State.hostReset]

/-- Settles O58: the step of a parked state is the end of the cycle alone. -/
theorem parkedStaysParked : Obligations.ParkedStaysParked :=
  fun s h => ⟨s.endCycle, h.step_eq, h.endCycle, s.endCycle_unchanged⟩

end Sys2Proof.Machine
end
